-- ==== Sys2Proof/Word.lean ====
section
/-! DEFINITION. The word types of the machine (spec/00_scope.md R6, R8): bytes of 8 bits, registers, addresses and
instructions of 32 bits. -/

namespace Sys2Proof

/-- A byte of memory (R6, R40). -/
abbrev Byte := BitVec 8

/-- A register value, an address or the 32 bits of an instruction (R6, R20, R60). -/
abbrev Word := BitVec 32

end Sys2Proof
end

