-- ==== Sys2Proof/Syntax.lean ====
section
/-! DEFINITION. The instructions: one constructor for each row of spec/opcode_table.json, with the operands that the
instruction rules R82, R83, R99 and R100 of spec/40_ldmdb.md name, as the fields of R61 and R63 give them. -/

namespace Sys2Proof

/-- The two instruction sets; the state bit `T` is 0 for A32 and 1 for T32 (R26). -/
inductive ISet where
  | a32
  | t32
  deriving DecidableEq, Repr

/-- The instructions of the opcode table. LDMEA is the alternate spelling of the same bits (R76, R99, R100). -/
inductive Instr where
  /-- LDMDB, encoding A1 (R82). -/
  | ldmdbA1 (cond : BitVec 4) (w : Bool) (rn : BitVec 4) (registerList : BitVec 16)
  /-- LDMDB, encoding T1 (R83). -/
  | ldmdbT1 (w : Bool) (rn : BitVec 4) (p m : Bool) (registerList : BitVec 14)
  /-- LDMEA, encoding A1 (R99). -/
  | ldmeaA1 (cond : BitVec 4) (w : Bool) (rn : BitVec 4) (registerList : BitVec 16)
  /-- LDMEA, encoding T1 (R100). -/
  | ldmeaT1 (w : Bool) (rn : BitVec 4) (p m : Bool) (registerList : BitVec 14)
  deriving DecidableEq, Repr

end Sys2Proof
end

