-- ==== Sys2Proof/WellFormed.lean ====
section
/-! DEFINITION. The instruction terms that stand for words of the encoding. The one constraint of the opcode table is
`cond != 1111` for A1 (R61, R66, R69); every T1 field is free (R63, R72). UNPREDICTABLE operands are well formed: they
decode (R71). -/

namespace Sys2Proof

/-- An A1 condition is not `1111` (R66). -/
def condWf (cond : BitVec 4) : Bool := cond != 0b1111#4

/-- The term is an instruction of the opcode table. -/
def Instr.wf : Instr → Bool
  | .ldmdbA1 cond _ _ _ => condWf cond
  | .ldmdbT1 _ _ _ _ _ => true
  | .ldmeaA1 cond _ _ _ => condWf cond
  | .ldmeaT1 _ _ _ _ _ => true

end Sys2Proof
end

