-- ==== Sys2Proof/Decode.lean ====
section
/-! DEFINITION. Decoding of the 32 instruction bits by instruction set (spec/30_encoding.md R61 to R74), the layout of
the bits in memory (spec/20_memory.md R48), and the encoder written from the same tables. -/

namespace Sys2Proof

/-- Why bits are no instruction of this spec (R13, R69, R70); each is the outcome NotInScope. -/
inductive DecodeReject where
  /-- An A32 word that differs from A1 in a fixed bit (R62, R70). -/
  | fixedBitsA1 (bits : Word)
  /-- An A32 word with A1's fixed bits and `cond == 1111` (R69). -/
  | condIs1111 (bits : Word)
  /-- A T32 pair of halfwords that differs from T1 in a fixed bit (R64, R70). -/
  | fixedBitsT1 (bits : Word)
  /-- Fewer than the four bytes that both encodings have (R60). -/
  | truncated
  deriving DecidableEq, Repr

/-- The fixed bits of A1 (R62). -/
abbrev maskA1 : Word := 0x0FD00000#32

/-- The value of A1's fixed bits (R62). -/
abbrev matchA1 : Word := 0x09100000#32

/-- The fixed bits of T1 (R64). -/
abbrev maskT1 : Word := 0xFFD00000#32

/-- The value of T1's fixed bits (R64). -/
abbrev matchT1 : Word := 0xE9100000#32

/-- Decode an A32 word (R61, R62, R66). -/
def decodeA32 (bits : Word) : Except DecodeReject Instr :=
  if bits &&& maskA1 = matchA1 then
    if bits.extractLsb' 28 4 = 0b1111#4 then .error (.condIs1111 bits)
    else .ok (.ldmdbA1 (bits.extractLsb' 28 4) (bits.getLsbD 21) (bits.extractLsb' 16 4) (bits.extractLsb' 0 16))
  else .error (.fixedBitsA1 bits)

/-- Decode a T32 pair `hw1 : hw2` (R63, R64). -/
def decodeT32 (bits : Word) : Except DecodeReject Instr :=
  if bits &&& maskT1 = matchT1 then
    .ok (.ldmdbT1 (bits.getLsbD 21) (bits.extractLsb' 16 4) (bits.getLsbD 15) (bits.getLsbD 14)
      (bits.extractLsb' 0 14))
  else .error (.fixedBitsT1 bits)

/-- Which decoder applies is chosen by the instruction set, not by the bits (R73). -/
def decodeBits (t : ISet) (bits : Word) : Except DecodeReject Instr :=
  match t with
  | .a32 => decodeA32 bits
  | .t32 => decodeT32 bits

/-- The instruction bits from the four bytes at rising addresses (R48): an A32 word is little-endian; a T32 pair is two
little-endian halfwords, the first at the lower address and in bits [31:16]. -/
def bitsOfBytes (t : ISet) (b0 b1 b2 b3 : Byte) : Word :=
  match t with
  | .a32 => b3 ++ b2 ++ b1 ++ b0
  | .t32 => b1 ++ b0 ++ b3 ++ b2

/-- Decode the instruction at the front of a list of bytes; total on any bytes. -/
def decode (t : ISet) : List Byte → Except DecodeReject (Instr × List Byte)
  | b0 :: b1 :: b2 :: b3 :: rest =>
    match decodeBits t (bitsOfBytes t b0 b1 b2 b3) with
    | .ok i => .ok (i, rest)
    | .error e => .error e
  | _ => .error .truncated

/-! The encoder. -/

/-- The instruction set an instruction belongs to (R80). -/
def Instr.iset : Instr → ISet
  | .ldmdbA1 _ _ _ _ => .a32
  | .ldmdbT1 _ _ _ _ _ => .t32
  | .ldmeaA1 _ _ _ _ => .a32
  | .ldmeaT1 _ _ _ _ _ => .t32

/-- The preferred spelling, which is the one decoding gives: no bit records which spelling was used (R75, R76). -/
def Instr.preferred : Instr → Instr
  | .ldmdbA1 cond w rn l => .ldmdbA1 cond w rn l
  | .ldmdbT1 w rn p m l => .ldmdbT1 w rn p m l
  | .ldmeaA1 cond w rn l => .ldmdbA1 cond w rn l
  | .ldmeaT1 w rn p m l => .ldmdbT1 w rn p m l

/-- A1, box by box from bit 31 down (R61): cond, 100, P = 1, U = 0, op = 0, W, L = 1, Rn, register_list. -/
def encodeA1 (cond : BitVec 4) (w : Bool) (rn : BitVec 4) (l : BitVec 16) : Word :=
  cond ++ 0b100#3 ++ 0b1#1 ++ 0b0#1 ++ 0b0#1 ++ BitVec.ofBool w ++ 0b1#1 ++ rn ++ l

/-- T1, box by box from bit 31 down (R63): 1110100, opc = 10, 0, W, L = 1, Rn, P, M, register_list. -/
def encodeT1 (w : Bool) (rn : BitVec 4) (p m : Bool) (l : BitVec 14) : Word :=
  0b1110100#7 ++ 0b10#2 ++ 0b0#1 ++ BitVec.ofBool w ++ 0b1#1 ++ rn ++ BitVec.ofBool p ++ BitVec.ofBool m ++ l

/-- The 32 instruction bits of an instruction (R61, R63, R99, R100). -/
def encode : Instr → Word
  | .ldmdbA1 cond w rn l => encodeA1 cond w rn l
  | .ldmdbT1 w rn p m l => encodeT1 w rn p m l
  | .ldmeaA1 cond w rn l => encodeA1 cond w rn l
  | .ldmeaT1 w rn p m l => encodeT1 w rn p m l

/-- The bytes at rising addresses that hold the instruction bits (R48). -/
def bytesOfBits (t : ISet) (bits : Word) : List Byte :=
  match t with
  | .a32 => [bits.extractLsb' 0 8, bits.extractLsb' 8 8, bits.extractLsb' 16 8, bits.extractLsb' 24 8]
  | .t32 => [bits.extractLsb' 16 8, bits.extractLsb' 24 8, bits.extractLsb' 0 8, bits.extractLsb' 8 8]

/-- An instruction as it lies in memory. -/
def encodeBytes (i : Instr) : List Byte := bytesOfBits i.iset (encode i)

/-! The opcode table's words (log entry 9). -/

/-- The low `nbits` bits of a table word, zeros above. -/
def tableBits (nbits w : Nat) : Word := BitVec.ofNat 32 (w % 2 ^ nbits)

/-- DESIGN CHOICE (log entry 9): the instruction set of a table word. A table word does not say its set, and an A1 word
with condition AL is a T1 pattern too (R73): a word with T1's fixed bits is read as T1, any other as A1. -/
def tableISet (bits : Word) : ISet := if bits &&& maskT1 = matchT1 then .t32 else .a32

/-- The instruction the decoder reads from a table word laid out as the hardware stores it. -/
def decodeTableWord (nbits w : Nat) : Option Instr :=
  let bits := tableBits nbits w
  let t := tableISet bits
  match decode t (bytesOfBits t bits) with
  | .ok (i, _) => some i
  | .error _ => none

end Sys2Proof
end

