-- ==== Sys2Proof/Config.lean ====
section
/-! DEFINITION. What the implementation or the launch fixes (spec/00_scope.md R7, spec/92_eei_decisions.md) and the free
values (R15, R34). The launch arguments are plain data, which State carries and no step writes; the free values are
opaque constants, of which nothing can be proved. -/

namespace Sys2Proof

/-- The seven causes of UNPREDICTABLE, under the spec's names (R91 to R97). -/
inductive UnpredCase where
  /-- `n == 15` (R91). -/
  | baseIsPC
  /-- `registers == 0` (R93). -/
  | emptyList
  /-- One register in a T1 list (R94). -/
  | singleRegisterT1
  /-- LR and PC both in a T1 list (R95). -/
  | lrAndPcT1
  /-- Writeback to a base that is in the list (R92). -/
  | writebackBaseInList
  /-- R13 in a T1 list (R96). -/
  | r13InListT1
  /-- A T1 list with the PC inside an IT block, not at its end (R97). -/
  | pcLoadInsideITBlock
  deriving DecidableEq, Repr

/-- The setting of CU_POLICY for one case: fault, or allow every listed behaviour as an alternative (D8). -/
inductive CuSetting where
  | fault
  | allow
  deriving DecidableEq, Repr

/-- CU_POLICY: a setting for each of the five cases whose permitted behaviours the source lists (R92 to R96). The other
two, `baseIsPC` and `pcLoadInsideITBlock`, have no setting (R91, R97). -/
structure CuPolicy where
  emptyList : CuSetting
  singleRegisterT1 : CuSetting
  lrAndPcT1 : CuSetting
  writebackBaseInList : CuSetting
  r13InListT1 : CuSetting
  deriving DecidableEq, Repr

/-- The kinds with which MemAdmit refuses an access (R50). -/
inductive AccessRefusal where
  | translation
  | permission
  | external
  | other
  deriving DecidableEq, Repr

/-- One region of the launch's MemAdmit: the addresses from `first` to `last`, both included, are refused with a kind,
or admitted (`none`) where the memory image holds the byte. -/
structure AdmitRegion where
  first : Nat
  last : Nat
  refusal : Option AccessRefusal
  deriving DecidableEq, Repr

/-- The launch arguments (R7, R34). -/
structure Params where
  /-- BIGEND: data words are big-endian (R45). -/
  bigEnd : Bool
  /-- CU_POLICY (R14). -/
  cuPolicy : CuPolicy
  /-- A32_FORCE_ALIGN_PC: what a PC load with bits [1:0] = 10 does (R89). -/
  forceAlignPc : Option Bool
  /-- MemAdmit's regions: the first one that covers an address answers for it (R50). -/
  regions : List AdmitRegion
  /-- The kind of refusal for an address of which the memory image holds no byte (R50). -/
  absent : AccessRefusal
  /-- HALT_PC: where a run ends (R123). -/
  haltPc : Word
  /-- HAS_LSMAOC: no result depends on it (R52). -/
  hasLsmaoc : Bool
  /-- HAS_DIT: no result depends on it (R28). -/
  hasDit : Bool
  deriving DecidableEq, Repr

/-- The default CU_POLICY: every case faults (R7, R14). -/
def CuPolicy.default : CuPolicy :=
  { emptyList := .fault, singleRegisterT1 := .fault, lrAndPcT1 := .fault, writebackBaseInList := .fault,
    r13InListT1 := .fault }

/-- The launch arguments at reset: R7's default where it gives one.
DESIGN CHOICE (log entries 3 and 4, unsafe) for the regions, the absent kind, HALT_PC and the two HAS bits, for which
R7 gives none. -/
def Params.default : Params :=
  { bigEnd := false, cuPolicy := .default, forceAlignPc := none, regions := [], absent := .translation,
    haltPc := 0xFFFFFFFC#32, hasLsmaoc := false, hasDit := false }

namespace Config

/-! Free values. `d` is the number of the draw, the counter `draws` of State (log entry 5). -/

/-- Which of the permitted behaviours an UNPREDICTABLE instruction shows, as an index taken modulo their number
(R92 to R96). -/
opaque cuChoice (d : Nat) : Nat

/-- `bits(32) UNKNOWN` (R15). -/
opaque unknownWord (d : Nat) : Word

/-- The "unspecified set of registers" (R93, R94). -/
opaque unspecifiedSet (d : Nat) : BitVec 16

/-- The number of words by which an empty-list instruction moves its written-back base, 0 to 16 (R93). -/
opaque writebackWords (d : Nat) : Fin 17

/-- Whether R14 is loaded when a T1 list holds both LR and PC (R95). -/
opaque loadsLr (d : Nat) : Bool

/-- Whether R15 is loaded when a T1 list holds both LR and PC (R95). -/
opaque loadsPc (d : Nat) : Bool

/-- The address from which register `i` is loaded when a T1 list holds both LR and PC (R95). -/
opaque loadAddress (d i : Nat) : Word

end Config

end Sys2Proof
end

