-- ==== Sys2Proof/Machine/State.lean ====
section
/-! DEFINITION. The machine's state (spec/10_state.md, spec/00_scope.md R7), its faults (spec/60_exceptions.md R110),
its refusals (R13, R131) and its reset state. -/

namespace Sys2Proof.Machine

/-- The kinds of data abort (R110): alignment, or the kind with which MemAdmit refuses. -/
inductive AbortKind where
  | alignment
  | refused (why : AccessRefusal)
  deriving DecidableEq, Repr

/-- The faults of R110. Each is terminal and no write of its step is kept (R112). All are safe: the model stops where
the hardware takes an exception or does something the spec does not fix. -/
inductive Fault where
  /-- Raised by fetch when `pc` is misaligned for `T` (R26, R48). Safe. -/
  | pcAlignment (pc : Word)
  /-- Raised by fetch when MemAdmit refuses the instruction bytes (R48). Safe. -/
  | prefetchAbort (pc : Word)
  /-- Raised by decode for an UNPREDICTABLE value (R91 to R98), with the instruction bits. Safe. -/
  | unpredictable (case : UnpredCase) (bits : Word)
  /-- Raised by decode where CU_POLICY admits `Constraint_UNDEF` (R113), with the instruction bits. Safe. -/
  | undefinedInstruction (bits : Word)
  /-- Raised by MemRead and by the operation's alignment check (R44, R46, R85, R111). Safe. -/
  | dataAbort (kind : AbortKind) (addr : Word)
  /-- Raised by the operation when the accessed words cross the top of the address space (R43, R85). Safe. -/
  | addressWrap (base : Word)
  /-- Raised by a load of the PC with bits [1:0] = 10 (R89). Safe. -/
  | unpredictableBranchAlign (v : Word)
  /-- Raised by the advance of the PC past the top of the address space (R25). Safe. -/
  | pcWrap (pc : Word)
  deriving DecidableEq, Repr

/-- The refusals: the model has no meaning here. All are safe. -/
inductive Refusal where
  /-- Answered by an arm of exec whose instruction has no meaning yet; no arm of this model answers it. Safe. -/
  | notModelled (mnemonic : String)
  /-- Answered by the step when the bits at `pc` are no LDMDB A1 (A32) or LDMDB T1 (T32) (R13, R69, R70). Safe. -/
  | notInScope (bits : Word)
  /-- Answered by the step for `T = 0` with `ITSTATE` not zero, and by a run for a misaligned entry `pc` as well
  (R30, R131). Safe. -/
  | illFormedLaunch
  deriving DecidableEq, Repr

/-- Memory: the bytes the launch image holds, by rising address (R40, R44). -/
abbrev Memory := List Host.Cell

/-- The state record of spec/10_state.md, with the launch arguments of R7 and R34 (`mem`, `params`, which no step
writes) and the model's own count of the draws made (log entry 5). -/
structure State where
  /-- R0 to R14 (R20). -/
  x : Vector Word 15
  /-- The address of the instruction being executed (R24). -/
  pc : Word
  /-- The condition flags (R27). -/
  flagN : Bool
  flagZ : Bool
  flagC : Bool
  flagV : Bool
  /-- The instruction-set state `T` (R26). -/
  t : ISet
  /-- `ITSTATE` (R30). -/
  itstate : BitVec 8
  /-- CPSR.DIT, which no rule reads (R28). -/
  dit : Bool
  /-- The launch memory (R34, R44). -/
  mem : Memory
  /-- The other launch arguments (R7, R34). -/
  params : Params
  /-- How many draws of free values were made; the model's own field (log entry 5). -/
  draws : Nat
  deriving DecidableEq, Repr

/-- DESIGN CHOICE (log entries 1 to 5, unsafe): the spec gives no reset value for anything (R33, R130); the model names
zero for every register and flag, and an empty memory image. -/
def State.reset : State :=
  { x := Vector.replicate 15 0#32, pc := 0#32, flagN := false, flagZ := false, flagC := false, flagV := false,
    t := .a32, itstate := 0#8, dit := false, mem := [], params := .default, draws := 0 }

end Sys2Proof.Machine
end

