-- ==== Sys2Proof/Machine/Ops.lean ====
section
/-! DEFINITION. The named operations over registers, memory and the program counter: register access (spec R11), the
memory image, MemAdmit and MemRead (R44 to R46, R50), fetch (R48, R81), LoadWritePC (R89) and the advance of the PC
(R25). The spec models no exception entry or return (R116, R117), so there is no such operation here. -/

namespace Sys2Proof.Machine

/-! Registers. -/

/-- `x[i]` (R11). -/
def State.getX (s : State) (i : Fin 15) : Word := s.x[i.val]

/-- `x[i] <- v` (R11). -/
def State.setX (s : State) (i : Fin 15) (v : Word) : State := { s with x := s.x.set i.val v }

/-- The commit of listing L84 (R84): each listed register receives the word loaded for it. -/
def State.commit (s : State) (loads : List (Fin 15 × Word)) : State :=
  loads.foldl (fun u l => u.setX l.1 l.2) s

/-! The memory image. -/

/-- The byte the image holds at an address; none where it lists nothing (log entry 2). -/
def Memory.read : Memory → Nat → Option Byte
  | [], _ => none
  | (k, b) :: rest, a => if k = a then some b else Memory.read rest a

/-- Put a byte into the image. No instruction stores (R42); placing a program does (log entry 8). -/
def Memory.write : Memory → Nat → Byte → Memory
  | [], a, v => [(a, v)]
  | (k, b) :: rest, a, v =>
    if a < k then (a, v) :: (k, b) :: rest
    else if a = k then (a, v) :: rest
    else (k, b) :: Memory.write rest a v

/-- Put bytes at rising addresses. -/
def Memory.writeBytes : Memory → Nat → List Byte → Memory
  | m, _, [] => m
  | m, a, v :: vs => Memory.writeBytes (m.write a v) (a + 1) vs

/-- The canonical form: addresses strictly rising, all in the 32-bit address space (R40). An unlisted address has no
value, so every entry differs from what it reads as. -/
abbrev Memory.wf (m : Memory) : Prop :=
  m.Pairwise (fun p q => p.1 < q.1) ∧ ∀ p ∈ m, p.1 < 2 ^ 32

/-! MemAdmit and MemRead. -/

/-- A region covers an address. -/
def covers (r : AdmitRegion) (a : Nat) : Bool := r.first ≤ a && a ≤ r.last

/-- The kind with which a region refuses an address, if the first region that covers it refuses (R50). -/
def State.regionRefusal (s : State) (a : Nat) : Option AccessRefusal :=
  match s.params.regions.find? (fun r => covers r a) with
  | some r => r.refusal
  | none => none

/-- One byte of an access: MemAdmit's answer, and where it admits, the byte of the image (R44, R50). An address above
`0xFFFFFFFF` does not exist (R40), and an address of which the image holds no byte is not admitted (log entry 3). -/
def State.loadByte (s : State) (a : Nat) : Except AccessRefusal Byte :=
  match s.regionRefusal a with
  | some k => .error k
  | none =>
    if a < 2 ^ 32 then
      match s.mem.read a with
      | some b => .ok b
      | none => .error s.params.absent
    else .error s.params.absent

/-- Four bytes at rising addresses; the refusal is that of the lowest refused one. -/
def State.loadBytes4 (s : State) (a : Nat) : Except AccessRefusal (Byte × Byte × Byte × Byte) := do
  let b0 ← s.loadByte a
  let b1 ← s.loadByte (a + 1)
  let b2 ← s.loadByte (a + 2)
  let b3 ← s.loadByte (a + 3)
  pure (b0, b1, b2, b3)

/-- The byte order of a data word (R45). -/
def wordOfBytes (bigEnd : Bool) (b0 b1 b2 b3 : Byte) : Word :=
  if bigEnd then b0 ++ b1 ++ b2 ++ b3 else b3 ++ b2 ++ b1 ++ b0

/-- A word address is a multiple of 4 (R46). -/
def wordAligned (a : Word) : Bool := a.extractLsb' 0 2 == 0b00#2

/-- `MemRead(addr, 4)` (R44): alignment, then MemAdmit, then the word. -/
def State.memRead (s : State) (addr : Word) : Except Fault Word :=
  if wordAligned addr then
    match s.loadBytes4 addr.toNat with
    | .error k => .error (.dataAbort (.refused k) addr)
    | .ok (b0, b1, b2, b3) => .ok (wordOfBytes s.params.bigEnd b0 b1 b2 b3)
  else .error (.dataAbort .alignment addr)

/-! Fetch. -/

/-- `pc` is aligned as the instruction set requires (R26). -/
def pcAligned (t : ISet) (pc : Word) : Bool :=
  match t with
  | .a32 => pc.extractLsb' 0 2 == 0b00#2
  | .t32 => pc.extractLsb' 0 1 == 0b0#1

/-- The 32 instruction bits at `pc` (R48, R81 stage 1). -/
def State.fetch (s : State) : Except Fault Word :=
  if pcAligned s.t s.pc then
    match s.loadBytes4 s.pc.toNat with
    | .error _ => .error (.prefetchAbort s.pc)
    | .ok (b0, b1, b2, b3) => .ok (bitsOfBytes s.t b0 b1 b2 b3)
  else .error (.pcAlignment s.pc)

/-- R30, R131 (b): `T = 0` implies `ITSTATE = 00000000`. -/
def State.itFormed (s : State) : Bool :=
  match s.t with
  | .a32 => s.itstate == 0#8
  | .t32 => true

/-- The instruction at `pc` (R81 stages 1 and 2); a state that breaks R131 (b) is refused first (log entry 10). -/
def State.fetchInstr (s : State) : Host.Outcome Instr Fault Refusal :=
  if s.itFormed then
    match s.fetch with
    | .error f => .fault f
    | .ok bits =>
      match decodeBits s.t bits with
      | .error _ => .refused (.notInScope bits)
      | .ok i => .next i
  else .refused .illFormedLaunch

/-! The program counter. -/

/-- The advance `pc <- pc + 4`, which faults where it would pass the top of the address space (R25). -/
def State.nextPc (s : State) : Except Fault (Word × ISet) :=
  if s.pc.toNat < 0xFFFFFFFC then .ok (s.pc + 4#32, s.t) else .error (.pcWrap s.pc)

/-- `BranchTarget(v)`, the interworking branch of LoadWritePC (R89). -/
def branchTarget (forceAlign : Option Bool) (v : Word) : Except Fault (Word × ISet) :=
  if v.getLsbD 0 then .ok (v.extractLsb' 1 31 ++ 0b0#1, .t32)
  else if v.getLsbD 1 then
    match forceAlign with
    | none => .error (.unpredictableBranchAlign v)
    | some true => .ok (v.extractLsb' 2 30 ++ 0b00#2, .a32)
    | some false => .ok (v, .a32)
  else .ok (v, .a32)

/-- `pc <- newpc; T <- newT` (R84). -/
def State.setPc (s : State) (target : Word × ISet) : State := { s with pc := target.1, t := target.2 }

/-- The whole effect of an instruction whose condition fails, and of `Constraint_NOP` (R90). -/
def State.advance (s : State) : Except Fault State := do
  let target ← s.nextPc
  pure (s.setPc target)

/-! The model's own bookkeeping. -/

/-- One more draw was made (log entry 5). -/
def State.drawn (s : State) : State := { s with draws := s.draws + 1 }

/-! Placing an instruction where the next step fetches (log entry 8). -/

/-- `pc` as a fetch of four bytes needs it: unchanged where it is aligned and has four bytes below the top. -/
def placePc (t : ISet) (pc : Word) : Word :=
  if pcAligned t pc && pc.toNat + 4 ≤ 2 ^ 32 then pc else pc.extractLsb' 2 30 ++ 0b00#2

/-- Admit the four bytes at `a`, where a region refuses one of them. -/
def State.admit4 (s : State) (a : Nat) : State :=
  match s.loadBytes4 a with
  | .ok _ => s
  | .error _ =>
    { s with params := { s.params with
        regions := { first := a, last := a + 3, refusal := none } :: s.params.regions } }

/-- The state with the instruction bits of set `t` stored at the next fetch, `T` and `ITSTATE` made to fit. -/
def State.place (s : State) (t : ISet) (bits : Word) : State :=
  let pc := placePc t s.pc
  let it := match t with
    | .a32 => 0#8
    | .t32 => s.itstate
  State.admit4 { s with t := t, itstate := it, pc := pc, mem := s.mem.writeBytes pc.toNat (bytesOfBits t bits) }
    pc.toNat

end Sys2Proof.Machine
end

