-- ==== Sys2Proof/Machine/Flags.lean ====
section
/-! DEFINITION. Conditions and the IT state: ConditionPassed (spec/10_state.md R27), InITBlock and LastInITBlock (R30)
and the IT advance (R31). No instruction writes a flag (R103). -/

namespace Sys2Proof.Machine

/-- The base test selected by `cond[3:1]` (R27). -/
def State.condBase (s : State) (sel : BitVec 3) : Bool :=
  match sel.toNat with
  | 0 => s.flagZ
  | 1 => s.flagC
  | 2 => s.flagN
  | 3 => s.flagV
  | 4 => s.flagC && !s.flagZ
  | 5 => s.flagN == s.flagV
  | 6 => !s.flagZ && s.flagN == s.flagV
  | _ => true

/-- `ConditionPassed()` for a 4-bit condition: the base test, inverted if `cond[0]` is 1 and `cond` is not `1111`
(R27). -/
def State.conditionPassed (s : State) (cond : BitVec 4) : Bool :=
  if cond.getLsbD 0 && cond != 0b1111#4 then !s.condBase (cond.extractLsb' 1 3) else s.condBase (cond.extractLsb' 1 3)

/-- `InITBlock()` (R30); false in A32 state. -/
def State.inITBlock (s : State) : Bool := s.t == .t32 && s.itstate.extractLsb' 0 4 != 0b0000#4

/-- `LastInITBlock()` (R30); false in A32 state. -/
def State.lastInITBlock (s : State) : Bool := s.t == .t32 && s.itstate.extractLsb' 0 4 == 0b1000#4

/-- The condition of a T32 instruction: `ITSTATE[7:4]` in an IT block, `1110` otherwise (R27). -/
def State.itCond (s : State) : BitVec 4 := if s.inITBlock then s.itstate.extractLsb' 4 4 else 0b1110#4

/-- Inside an IT block and not its last instruction, where a load of the PC is UNPREDICTABLE (R97). -/
def State.midITBlock (s : State) : Bool := s.inITBlock && !s.lastInITBlock

/-- The advance of `ITSTATE` after a T32 instruction (R31). -/
def itAdvance (it : BitVec 8) : BitVec 8 :=
  if it.extractLsb' 0 3 = 0b000#3 then 0#8 else it.extractLsb' 5 3 ++ it.extractLsb' 0 4 ++ 0b0#1

/-- The IT state where a T32 instruction has loaded the PC in the middle of an IT block, which only an unspecified set
of registers can do (R93, R94). DEDUCED (log entry 6): a branch to A32 leaves `ITSTATE` zero, as A32 state has it (R30);
a branch to T32 leaves it to the advance (R31). `t` is the instruction set of the instruction, `before` the state's before it. -/
def State.itAfterBranch (t before : ISet) (s : State) : State :=
  if t = .t32 ∧ before = .t32 ∧ s.t = .a32 then { s with itstate := 0#8 } else s

/-- What the instruction set adds after an instruction: T32 advances `ITSTATE`, A32 leaves it (R31). -/
def State.afterInstr (s : State) (t : ISet) : State :=
  match t with
  | .a32 => s
  | .t32 => { s with itstate := itAdvance s.itstate }

end Sys2Proof.Machine
end

