-- ==== Sys2Proof/Machine/Operands.lean ====
section
/-! DEFINITION. The Decode of A1 and T1 (spec/40_ldmdb.md R82, R83): base register, register list, writeback, and the
UNPREDICTABLE cases in the order of R98; BitCount (spec/00_scope.md R10). -/

namespace Sys2Proof.Machine

/-- The number of listed registers below `i` (R85, R102). -/
def listedBelow (registers : BitVec 16) (i : Nat) : Nat := (List.range i).countP (fun j => registers.getLsbD j)

/-- `BitCount(registers)` (R10). -/
def bitCount (registers : BitVec 16) : Nat := listedBelow registers 16

/-- `n = UInt(Rn)` as a general register; none for 15, the PC (R65, R91). -/
def baseReg (rn : BitVec 4) : Option (Fin 15) := if h : rn.toNat < 15 then some ⟨rn.toNat, h⟩ else none

/-- `registers = P : M : register_list` (R68). -/
def listT1 (p m : Bool) (l : BitVec 14) : BitVec 16 := BitVec.ofBool p ++ BitVec.ofBool m ++ l

/-- What both encodings decode to (R80), with the condition, the instruction bits and the UNPREDICTABLE cases that
hold. -/
structure Decoded where
  iset : ISet
  bits : Word
  cond : BitVec 4
  rn : BitVec 4
  registers : BitVec 16
  wback : Bool
  cases : List UnpredCase
  deriving DecidableEq, Repr

/-- The cases of A1 that hold, in the order of R98. -/
def casesA1 (rn : BitVec 4) (registers : BitVec 16) (wback : Bool) : List UnpredCase :=
  (if rn = 0b1111#4 then [.baseIsPC] else [])
  ++ (if bitCount registers < 1 then [.emptyList] else [])
  ++ (if wback && registers.getLsbD rn.toNat then [.writebackBaseInList] else [])

/-- The cases of T1 that hold, in the order of R98; `midIT` is `InITBlock() && !LastInITBlock()`. -/
def casesT1 (rn : BitVec 4) (registers : BitVec 16) (wback midIT : Bool) : List UnpredCase :=
  (if rn = 0b1111#4 then [.baseIsPC] else [])
  ++ (if bitCount registers < 1 then [.emptyList] else [])
  ++ (if bitCount registers = 1 then [.singleRegisterT1] else [])
  ++ (if registers.getLsbD 15 && registers.getLsbD 14 then [.lrAndPcT1] else [])
  ++ (if wback && registers.getLsbD rn.toNat then [.writebackBaseInList] else [])
  ++ (if registers.getLsbD 13 then [.r13InListT1] else [])
  ++ (if registers.getLsbD 15 && midIT then [.pcLoadInsideITBlock] else [])

/-- The Decode of A1 (R82). -/
def decodedA1 (bits : Word) (cond : BitVec 4) (w : Bool) (rn : BitVec 4) (l : BitVec 16) : Decoded :=
  { iset := .a32, bits := bits, cond := cond, rn := rn, registers := l, wback := w, cases := casesA1 rn l w }

/-- The Decode of T1 in a state, which gives the condition and the IT case (R27, R83). -/
def decodedT1 (s : State) (bits : Word) (w : Bool) (rn : BitVec 4) (p m : Bool) (l : BitVec 14) : Decoded :=
  { iset := .t32, bits := bits, cond := s.itCond, rn := rn, registers := listT1 p m l, wback := w,
    cases := casesT1 rn (listT1 p m l) w s.midITBlock }

/-- What an instruction decodes to in a state (R82, R83, R99, R100). -/
def decodedOf (i : Instr) (s : State) : Decoded :=
  match i with
  | .ldmdbA1 cond w rn l => decodedA1 (encode i) cond w rn l
  | .ldmdbT1 w rn p m l => decodedT1 s (encode i) w rn p m l
  | .ldmeaA1 cond w rn l => decodedA1 (encode i) cond w rn l
  | .ldmeaT1 w rn p m l => decodedT1 s (encode i) w rn p m l

end Sys2Proof.Machine
end

