-- ==== Sys2Proof/Machine/LoadMultiple.lean ====
section
/-! DEFINITION. The one operation of LDMDB and LDMEA (spec/40_ldmdb.md R84 to R90), the behaviours that CU_POLICY may
admit (R91 to R98), and the meaning of each instruction (R82, R83, R99, R100). -/

namespace Sys2Proof.Machine

/-! The parts of listing L84. -/

/-- `start = (base - 4*k) mod 2^32` (R43, R85). -/
def startAddress (base : Word) (registers : BitVec 16) : Word := base - BitVec.ofNat 32 (4 * bitCount registers)

/-- The checks on the address range before any read: alignment, then wrap-around (R43, R46, R85). -/
def checkRange (base : Word) (registers : BitVec 16) : Except Fault Unit :=
  if wordAligned (startAddress base registers) then
    if 0 < base.toNat ∧ base.toNat < 4 * bitCount registers then .error (.addressWrap base) else .ok ()
  else .error (.dataAbort .alignment (startAddress base registers))

/-- The loop of listing L84 over the given register numbers (R86): the words read for the listed ones, and the address
after them. -/
def State.loadListed (s : State) (registers : BitVec 16) :
    List (Fin 15) → Word → Except Fault (List (Fin 15 × Word) × Word)
  | [], address => .ok ([], address)
  | i :: is, address =>
    if registers.getLsbD i.val then do
      let v ← s.memRead address
      let (loads, after) ← s.loadListed registers is (address + 4#32)
      pure ((i, v) :: loads, after)
    else s.loadListed registers is address

/-- The register numbers of the loop, `for i = 0 to 14` (R19, R86). -/
def loopRegs : List (Fin 15) := [0, 1, 2, 3, 4, 5, 6, 7, 8, 9, 10, 11, 12, 13, 14]

/-- The new PC and instruction set: the loaded word's target if the PC is listed, else the advance (R25, R88, R89). -/
def State.pcAfter (s : State) (registers : BitVec 16) (address : Word) : Except Fault (Word × ISet) :=
  if registers.getLsbD 15 then do
    let target ← s.memRead address
    branchTarget s.params.forceAlignPc target
  else s.nextPc

/-- The two writeback lines of listing L84 (R87): the start address, or UNKNOWN if the base is in the list, which only
CU_POLICY lets happen (R92). -/
def State.writeback (s : State) (n : Fin 15) (registers : BitVec 16) (wback : Bool) (start unknown : Word) : State :=
  if wback then s.setX n (if registers.getLsbD n.val then unknown else start) else s

/-- Listing L84 (R84). `unknown` is the value the last line draws. -/
def State.loadMultiple (s : State) (n : Fin 15) (registers : BitVec 16) (wback : Bool) (unknown : Word) :
    Except Fault State := do
  let start := startAddress (s.getX n) registers
  checkRange (s.getX n) registers
  let (loads, address) ← s.loadListed registers loopRegs start
  let target ← s.pcAfter registers address
  pure (((s.commit loads).writeback n registers wback start unknown).setPc target)

/-! The behaviours the source permits for an UNPREDICTABLE case (R92 to R96). -/

/-- A permitted behaviour. -/
inductive Behaviour where
  /-- `Constraint_UNDEF` (R113). -/
  | undef
  /-- `Constraint_NOP` (R90). -/
  | nop
  /-- "loads a single register using the specified addressing modes" (R94). -/
  | singleRegister
  /-- "performs all of the loads" with the written-back register UNKNOWN (R92). -/
  | baseUnknown
  /-- "performs all of the loads" with R13 UNKNOWN (R96). -/
  | r13Unknown
  /-- "executes as LDM ... targeting an unspecified set of registers" (R94). -/
  | unspecifiedSet
  /-- The same, and the written-back base moves by a drawn number of words (R93). -/
  | unspecifiedSetAndBase
  /-- "loads the register list and either R14 or R15, both R14 and R15, or neither" (R95). -/
  | lrAndPcDrawn
  deriving DecidableEq, Repr

/-- The behaviours the source lists for a case; none for the two causes without an entry (R91 to R97). -/
def permitted : UnpredCase → List Behaviour
  | .baseIsPC => []
  | .emptyList => [.undef, .nop, .unspecifiedSetAndBase]
  | .singleRegisterT1 => [.undef, .nop, .singleRegister, .unspecifiedSet]
  | .lrAndPcT1 => [.undef, .nop, .lrAndPcDrawn]
  | .writebackBaseInList => [.undef, .nop, .baseUnknown]
  | .r13InListT1 => [.undef, .nop, .r13Unknown]
  | .pcLoadInsideITBlock => []

/-- The setting of CU_POLICY for a case (R7, D8). -/
def policySetting (p : CuPolicy) : UnpredCase → CuSetting
  | .baseIsPC => .fault
  | .emptyList => p.emptyList
  | .singleRegisterT1 => p.singleRegisterT1
  | .lrAndPcT1 => p.lrAndPcT1
  | .writebackBaseInList => p.writebackBaseInList
  | .r13InListT1 => p.r13InListT1
  | .pcLoadInsideITBlock => .fault

/-- The behaviour that happens: none where the policy says fault, else one of the permitted ones, chosen by a free
value (R98, log entry 5). -/
def State.chosen (s : State) (c : UnpredCase) : Option Behaviour :=
  match policySetting s.params.cuPolicy c with
  | .fault => none
  | .allow => (permitted c)[Config.cuChoice s.draws % (permitted c).length]?

/-- Listing L84 for an unspecified set of registers, which may include R15 (R93, R94), in the middle of an IT block too:
R97 is about the decoded list. DEDUCED (log entry 6): what `ITSTATE` then is. -/
def State.loadSet (s : State) (d : Decoded) (n : Fin 15) (set : BitVec 16) (wback : Bool) (unknown : Word) :
    Except Fault State :=
  (s.loadMultiple n set wback unknown).map (State.itAfterBranch d.iset s.t)

/-- The third behaviour of R93: the loads of an unspecified set, and on writeback the base moved down by a drawn number
of words. -/
def State.loadSetAndBase (s : State) (d : Decoded) (n : Fin 15) (set : BitVec 16) (words : Nat) :
    Except Fault State := do
  let after ← s.loadSet d n set false 0#32
  pure (if d.wback then after.setX n (s.getX n - BitVec.ofNat 32 (4 * words)) else after)

/-- The loop with a drawn address for each register (R95). DESIGN CHOICE (log entry 7): the words are read in order of
rising register number, the PC's last, although drawn addresses need not rise; of several words that cannot be read, the
abort is that of the lowest-numbered register. -/
def State.loadDrawn (s : State) (registers : BitVec 16) (address : Nat → Word) :
    List (Fin 15) → Except Fault (List (Fin 15 × Word))
  | [] => .ok []
  | i :: is =>
    if registers.getLsbD i.val then do
      let v ← s.memRead (address i.val)
      let loads ← s.loadDrawn registers address is
      pure ((i, v) :: loads)
    else s.loadDrawn registers address is

/-- The list of R95's third behaviour: R14 and R15 each loaded or not. -/
def lrAndPcSet (registers : BitVec 16) (lr pc : Bool) : BitVec 16 :=
  BitVec.ofBool pc ++ BitVec.ofBool lr ++ registers.extractLsb' 0 14

/-- The third behaviour of R95: addresses and written-back base drawn. -/
def State.loadLrAndPc (s : State) (n : Fin 15) (set : BitVec 16) (wback : Bool) (address : Nat → Word)
    (base : Word) : Except Fault State := do
  let loads ← s.loadDrawn set address loopRegs
  let target ← s.pcAfter set (address 15)
  pure (((s.commit loads).writeback n set wback base base).setPc target)

/-- A permitted behaviour that loads, once the condition has passed (R92 to R96). `undef` and `nop` do not load and are
not asked for here. -/
def State.perform (s : State) (d : Decoded) (n : Fin 15) : Behaviour → Except Fault State
  | .undef => .error (.undefinedInstruction d.bits)
  | .nop => s.advance
  | .singleRegister => s.loadMultiple n d.registers d.wback (Config.unknownWord s.draws)
  | .baseUnknown => s.loadMultiple n d.registers d.wback (Config.unknownWord s.draws)
  | .r13Unknown => do
    let after ← s.loadMultiple n d.registers d.wback (Config.unknownWord s.draws)
    pure (after.setX 13 (Config.unknownWord s.draws))
  | .unspecifiedSet => s.loadSet d n (Config.unspecifiedSet s.draws) d.wback (Config.unknownWord s.draws)
  | .unspecifiedSetAndBase =>
    s.loadSetAndBase d n (Config.unspecifiedSet s.draws) (Config.writebackWords s.draws).val
  | .lrAndPcDrawn =>
    s.loadLrAndPc n (lrAndPcSet d.registers (Config.loadsLr s.draws) (Config.loadsPc s.draws)) d.wback
      (Config.loadAddress s.draws) (Config.unknownWord s.draws)

/-! One instruction. -/

/-- The end of an instruction: the fault, or the next state with what the instruction set adds (R81 stage 6). -/
def finish (t : ISet) : Except Fault State → Host.Outcome State Fault Refusal
  | .error f => .fault f
  | .ok s => .next (s.afterInstr t)

/-- An instruction whose Decode is defined: the operation if the condition passes, else only the advance (R81 stages 4
and 5, R90). -/
def State.execDefined (s : State) (d : Decoded) (n : Fin 15) : Except Fault State :=
  if s.conditionPassed d.cond then s.loadMultiple n d.registers d.wback (Config.unknownWord s.draws) else s.advance

/-- An instruction with one UNPREDICTABLE case (R14, R92 to R96): the fault, or the behaviour CU_POLICY admits.
`undef` faults whatever the condition; the loads are made only if the condition passes (log entry 6). -/
def State.execCase (s : State) (d : Decoded) (n : Fin 15) (c : UnpredCase) : Except Fault State :=
  match s.chosen c with
  | none => .error (.unpredictable c d.bits)
  | some .undef => .error (.undefinedInstruction d.bits)
  | some b => (if s.conditionPassed d.cond then s.perform d n b else s.advance).map State.drawn

/-- Stages 3 to 6 of a step (R81): no case, the defined instruction; one case, what CU_POLICY admits; two or more, the
fault with the first name (R98). A base that is the PC is always the case BaseIsPC (R91). -/
def execDecoded (d : Decoded) (s : State) : Host.Outcome State Fault Refusal :=
  match baseReg d.rn, d.cases with
  | some n, [] => finish d.iset (s.execDefined d n)
  | some n, [c] => finish d.iset (s.execCase d n c)
  | _, c :: _ => .fault (.unpredictable c d.bits)
  | none, [] => .fault (.unpredictable .baseIsPC d.bits)

/-! The meanings. -/

/-- LDMDB, encoding A1 (R82). -/
def execLdmdbA1 (cond : BitVec 4) (w : Bool) (rn : BitVec 4) (l : BitVec 16) (s : State) :
    Host.Outcome State Fault Refusal :=
  execDecoded (decodedA1 (encode (.ldmdbA1 cond w rn l)) cond w rn l) s

/-- LDMDB, encoding T1 (R83). -/
def execLdmdbT1 (w : Bool) (rn : BitVec 4) (p m : Bool) (l : BitVec 14) (s : State) :
    Host.Outcome State Fault Refusal :=
  execDecoded (decodedT1 s (encode (.ldmdbT1 w rn p m l)) w rn p m l) s

/-- LDMEA, encoding A1 (R99). -/
def execLdmeaA1 (cond : BitVec 4) (w : Bool) (rn : BitVec 4) (l : BitVec 16) (s : State) :
    Host.Outcome State Fault Refusal :=
  execDecoded (decodedA1 (encode (.ldmeaA1 cond w rn l)) cond w rn l) s

/-- LDMEA, encoding T1 (R100). -/
def execLdmeaT1 (w : Bool) (rn : BitVec 4) (p m : Bool) (l : BitVec 14) (s : State) :
    Host.Outcome State Fault Refusal :=
  execDecoded (decodedT1 s (encode (.ldmeaT1 w rn p m l)) w rn p m l) s

end Sys2Proof.Machine
end

