-- ==== Sys2Proof/Machine/Dispatch.lean ====
section
/-! DEFINITION. The dispatch: one arm per constructor of Instr, each one call of the instruction's meaning. -/

namespace Sys2Proof.Machine

def exec (i : Instr) (s : State) : Host.Outcome State Fault Refusal :=
  match i with
  | .ldmdbA1 cond w rn l => Sys2Proof.Machine.execLdmdbA1 cond w rn l s
  | .ldmdbT1 w rn p m l => Sys2Proof.Machine.execLdmdbT1 w rn p m l s
  | .ldmeaA1 cond w rn l => Sys2Proof.Machine.execLdmeaA1 cond w rn l s
  | .ldmeaT1 w rn p m l => Sys2Proof.Machine.execLdmeaT1 w rn p m l s

end Sys2Proof.Machine
end

