-- ==== Sys2Proof/Machine/Step.lean ====
section
/-! DEFINITION. One step of the machine (spec/40_ldmdb.md R81), and the placing of an instruction where the next step
fetches it (log entry 8). -/

namespace Sys2Proof.Machine

/-- One step: the instruction at `pc`, executed (R81). -/
def step (s : State) : Host.Outcome State Fault Refusal :=
  match s.fetchInstr with
  | .next i => exec i s
  | .fault f => .fault f
  | .refused r => .refused r

/-- `s` with a table word stored where the next step fetches, and `T`, `ITSTATE`, the alignment of `pc` and the
admission of the bytes made to fit (log entries 8 and 9). -/
def State.withFetchWord (s : State) (nbits w : Nat) : State :=
  s.place (tableISet (tableBits nbits w)) (tableBits nbits w)

end Sys2Proof.Machine
end

