-- ==== Sys2Proof/Safety.lean ====
section
/-! DEFINITION. What claims are stated in: a well-formed machine state and launch (spec/70_reset_and_hazards.md R131),
when an instruction's operation runs and when it completes (spec/40_ldmdb.md R81 to R89), and a run to HALT_PC
(spec/60_exceptions.md R123). -/

namespace Sys2Proof.Machine

/-! Well-formed states. -/

/-- R131 (a) and (b): `pc` is aligned for `T`, and `T = 0` implies `ITSTATE = 0`. -/
def State.launchFormed (s : State) : Bool := pcAligned s.t s.pc && s.itFormed

/-- The invariant of the machine: R131 (b); the memory image in its canonical form; and `pc` aligned for `T` (R26),
unless A32_FORCE_ALIGN_PC lets a PC load break that (`some false`, R89). -/
def State.Formed (s : State) : Prop :=
  s.itFormed = true ∧ s.mem.wf ∧ (s.params.forceAlignPc ≠ some false → pcAligned s.t s.pc = true)

/-! When the operation runs and completes. -/

/-- The instruction reaches its operation in this state (R81 stages 3 to 5): its base is the general register `n`, no
UNPREDICTABLE case holds, and the condition passes. -/
def Operates (i : Instr) (s : State) (n : Fin 15) : Prop :=
  baseReg (decodedOf i s).rn = some n ∧ (decodedOf i s).cases = [] ∧
    s.conditionPassed (decodedOf i s).cond = true

/-- The instruction is one whose Decode is defined and whose condition fails (R90). -/
def Skips (i : Instr) (s : State) : Prop :=
  (decodedOf i s).cases = [] ∧ s.conditionPassed (decodedOf i s).cond = false

/-- The address from which register `i` (15 for the PC) is loaded: `start + 4*j`, with `j` the number of listed
registers below `i` (R85). -/
def wordAddress (s : State) (n : Fin 15) (registers : BitVec 16) (i : Nat) : Word :=
  startAddress (s.getX n) registers + BitVec.ofNat 32 (4 * listedBelow registers i)

/-- The read of a word answers a value. -/
def State.reads (s : State) (a : Word) : Bool :=
  match s.memRead a with
  | .ok _ => true
  | .error _ => false

/-- The accessed words wrap around the top of the address space: `0 < base < 4*k` (R43). -/
def wraps (base : Word) (registers : BitVec 16) : Bool :=
  decide (0 < base.toNat) && decide (base.toNat < 4 * bitCount registers)

/-- Every word of the list can be read: the base is word-aligned, the range does not wrap, and MemAdmit admits the
`k` words (R43, R44, R46). -/
def LoadsReady (s : State) (n : Fin 15) (registers : BitVec 16) : Prop :=
  wordAligned (s.getX n) = true ∧ wraps (s.getX n) registers = false ∧
    ∀ j, j < bitCount registers →
      s.reads (startAddress (s.getX n) registers + BitVec.ofNat 32 (4 * j)) = true

/-- The new PC exists: a loaded word does not end in 10, unless A32_FORCE_ALIGN_PC says what then happens (R89); an
advance does not pass the top of the address space (R25). -/
def PcReady (s : State) (n : Fin 15) (registers : BitVec 16) : Prop :=
  if registers.getLsbD 15 = true then
    ∀ v, s.memRead (s.getX n - 4#32) = .ok v → v.extractLsb' 0 2 ≠ 0b10#2 ∨ s.params.forceAlignPc ≠ none
  else s.pc.toNat < 0xFFFFFFFC

/-! Runs. -/

/-- How a run stands: at its normal end, stopped by a fault or a refusal with the state before that step (R112), or not
yet ended. -/
inductive RunEnd where
  | final (s : State)
  | fault (f : Fault) (before : State)
  | refused (r : Refusal) (before : State)
  | running (s : State)
  deriving DecidableEq, Repr

/-- At most `k` steps; before each one the run ends normally if `pc == HALT_PC` (R123). -/
def runSteps : Nat → State → RunEnd
  | 0, s => if s.pc = s.params.haltPc then .final s else .running s
  | k + 1, s =>
    if s.pc = s.params.haltPc then .final s
    else
      match step s with
      | .next s' => runSteps k s'
      | .fault f => .fault f s
      | .refused r => .refused r s

/-- A run from a launch state, which R131 (a) and (b) must hold of. -/
def runFrom (k : Nat) (s : State) : RunEnd :=
  if s.launchFormed then runSteps k s else .refused .illFormedLaunch s

/-- A run is safe as long as it stops at no fault and no refusal. -/
def RunEnd.safe : RunEnd → Bool
  | .final _ => true
  | .running _ => true
  | .fault _ _ => false
  | .refused _ _ => false

end Sys2Proof.Machine
end

