-- ==== Sys2Proof/Certificates/Slice0/Obligations.lean ====
section
/-! DEFINITION. The statements for the provers. Each docstring names the rules of spec/ it formalises; where a rule is
the spec's own decision (D<n> of spec/92_eei_decisions.md) or the model's (a log entry), it says so. -/

open Sys2Proof Sys2Proof.Machine

/-! Encoding. -/

/-- R62: an A32 word is LDMDB A1 exactly when its fixed bits match and its condition is not `1111`, and then its fields
are the bits of the diagram. -/
def Obligations.A1SelectionIsMaskMatchAndCond : Prop :=
  ∀ w : Word,
    (w &&& 0x0FD00000#32 = 0x09100000#32 ∧ w.extractLsb' 28 4 ≠ 0b1111#4 →
      decodeBits .a32 w = .ok (.ldmdbA1 (w.extractLsb' 28 4) (w.getLsbD 21) (w.extractLsb' 16 4)
        (w.extractLsb' 0 16))) ∧
    (¬(w &&& 0x0FD00000#32 = 0x09100000#32 ∧ w.extractLsb' 28 4 ≠ 0b1111#4) →
      ∃ e, decodeBits .a32 w = .error e)

/-- R64: a T32 pair is LDMDB T1 exactly when its fixed bits match, which are bits of the first halfword alone, and then
its fields are the bits of the diagram. -/
def Obligations.T1SelectionIsMaskMatchOfFirstHalfword : Prop :=
  ∀ w : Word,
    (w &&& 0xFFD00000#32 = 0xE9100000#32 ↔ w.extractLsb' 16 16 &&& 0xFFD0#16 = 0xE910#16) ∧
    (w &&& 0xFFD00000#32 = 0xE9100000#32 →
      decodeBits .t32 w = .ok (.ldmdbT1 (w.getLsbD 21) (w.extractLsb' 16 4) (w.getLsbD 15) (w.getLsbD 14)
        (w.extractLsb' 0 14))) ∧
    (w &&& 0xFFD00000#32 ≠ 0xE9100000#32 → ∃ e, decodeBits .t32 w = .error e)

/-- R61, R63, R76, R99, R100: for every well-formed instruction, decoding its encoded bits, and its bytes in memory
whatever follows them, gives it back in the preferred spelling. -/
def Obligations.DecodeOfEncodeIsPreferredSpelling : Prop :=
  ∀ (i : Instr) (rest : List Byte), i.wf = true →
    decodeBits i.iset (encode i) = .ok i.preferred ∧
    decode i.iset (encodeBytes i ++ rest) = .ok (i.preferred, rest)

/-- R61, R63, R72: what decodes encodes back to the same bits, so no two patterns decode alike; it belongs to the set
it was decoded in, is well formed, and is in the preferred spelling. -/
def Obligations.EncodeOfDecodeIsTheBits : Prop :=
  ∀ (t : ISet) (w : Word) (i : Instr), decodeBits t w = .ok i →
    encode i = w ∧ i.iset = t ∧ i.wf = true ∧ i.preferred = i

/-- Words written out bit by bit from the diagrams (R61, R63; spec/95_test_vectors.md E2, E4, E9, F1, F3, F12) decode as
the spec says. -/
def Obligations.SpecWordsDecode : Prop :=
  decodeBits .a32 0b1110_100_1_0_0_1_1_0000_0000000000000110#32 = .ok (.ldmdbA1 14#4 true 0#4 0x0006#16) ∧
  decodeBits .a32 0b1110_100_1_0_0_0_1_1011_1010100000010000#32 = .ok (.ldmdbA1 14#4 false 11#4 0xA810#16) ∧
  decodeBits .a32 0b1111_100_1_0_0_0_1_0000_0000000000000110#32
    = .error (.condIs1111 0b1111_100_1_0_0_0_1_0000_0000000000000110#32) ∧
  decodeBits .t32 0b1110100_10_0_1_1_0000_0_0_00000000000110#32 = .ok (.ldmdbT1 true 0#4 false false 0x0006#14) ∧
  decodeBits .t32 0b1110100_10_0_0_1_0111_1_0_00000000110000#32 = .ok (.ldmdbT1 false 7#4 true false 0x0030#14) ∧
  decodeBits .t32 0b1110100_01_0_1_1_0000_0_0_00000000000110#32
    = .error (.fixedBitsT1 0b1110100_01_0_1_1_0000_0_0_00000000000110#32)

/-- R73 with R48: the pattern `E9300006` is an instruction in both sets, from different bytes, and each byte sequence is
no instruction in the other set. -/
def Obligations.OnePatternTwoByteOrders : Prop :=
  decode .a32 [0x06#8, 0x00#8, 0x30#8, 0xE9#8] = .ok (.ldmdbA1 14#4 true 0#4 0x0006#16, []) ∧
  decode .t32 [0x30#8, 0xE9#8, 0x06#8, 0x00#8] = .ok (.ldmdbT1 true 0#4 false false 0x0006#14, []) ∧
  decode .t32 [0x06#8, 0x00#8, 0x30#8, 0xE9#8] = .error (.fixedBitsT1 0x0006E930#32) ∧
  decode .a32 [0x30#8, 0xE9#8, 0x06#8, 0x00#8] = .error (.fixedBitsA1 0x0006E930#32)

/-- R82, R71: the operands of an A1 instruction in either spelling, and exactly when none of its UNPREDICTABLE cases
holds. -/
def Obligations.A1DecodeOperandsAndCases : Prop :=
  ∀ (i : Instr) (cond : BitVec 4) (w : Bool) (rn : BitVec 4) (l : BitVec 16) (s : State),
    i = .ldmdbA1 cond w rn l ∨ i = .ldmeaA1 cond w rn l →
    (decodedOf i s).cond = cond ∧ (decodedOf i s).rn = rn ∧ (decodedOf i s).registers = l ∧
    (decodedOf i s).wback = w ∧
    ((decodedOf i s).cases = [] ↔ rn ≠ 0b1111#4 ∧ l ≠ 0#16 ∧ ¬(w = true ∧ l.getLsbD rn.toNat = true))

/-- R83, R68, R71: the operands of a T1 instruction in either spelling, and exactly when none of its UNPREDICTABLE cases
holds. The list is `P : M : register_list`. -/
def Obligations.T1DecodeOperandsAndCases : Prop :=
  ∀ (i : Instr) (w : Bool) (rn : BitVec 4) (p m : Bool) (l : BitVec 14) (s : State),
    i = .ldmdbT1 w rn p m l ∨ i = .ldmeaT1 w rn p m l →
    (decodedOf i s).rn = rn ∧ (decodedOf i s).wback = w ∧
    (∀ j, (decodedOf i s).registers.getLsbD j =
      if j < 14 then l.getLsbD j else if j = 14 then m else if j = 15 then p else false) ∧
    ((decodedOf i s).cases = [] ↔
      rn ≠ 0b1111#4 ∧ 2 ≤ bitCount (decodedOf i s).registers ∧ ¬(p = true ∧ m = true) ∧
      ¬(w = true ∧ (decodedOf i s).registers.getLsbD rn.toNat = true) ∧ l.getLsbD 13 = false ∧
      ¬(p = true ∧ s.inITBlock = true ∧ s.lastInITBlock = false))

/-! The step. -/

/-- R81: when the four bytes at an aligned `pc` can be fetched and decode to an instruction, a step is that instruction
executed, with nothing added. -/
def Obligations.StepRunsDecodedInstruction : Prop :=
  ∀ (s : State) (b0 b1 b2 b3 : Byte) (i : Instr), s.itFormed = true → pcAligned s.t s.pc = true →
    s.loadByte s.pc.toNat = .ok b0 → s.loadByte (s.pc.toNat + 1) = .ok b1 →
    s.loadByte (s.pc.toNat + 2) = .ok b2 → s.loadByte (s.pc.toNat + 3) = .ok b3 →
    decode s.t [b0, b1, b2, b3] = .ok (i, []) → step s = exec i s

/-- R48, R26 (the spec's decision D14): a misaligned `pc` faults, in A32 unless it is a multiple of 4, in T32 unless it
is a multiple of 2. -/
def Obligations.MisalignedPcFaults : Prop :=
  ∀ s : State, s.itFormed = true →
    (s.t = .a32 ∧ s.pc.toNat % 4 ≠ 0 ∨ s.t = .t32 ∧ s.pc.toNat % 2 ≠ 0) → step s = .fault (.pcAlignment s.pc)

/-- R48 (the spec's decision D14): an aligned `pc` of whose four bytes one is refused faults with PrefetchAbort. -/
def Obligations.RefusedFetchFaults : Prop :=
  ∀ (s : State) (k : Nat) (why : AccessRefusal), s.itFormed = true → pcAligned s.t s.pc = true → k < 4 →
    s.loadByte (s.pc.toNat + k) = .error why → step s = .fault (.prefetchAbort s.pc)

/-- R13, R69, R70 (the spec's decision D1): fetched bits that are no instruction of this spec are refused as
NotInScope. -/
def Obligations.OtherWordsAreNotInScope : Prop :=
  ∀ (s : State) (w : Word) (e : DecodeReject), s.itFormed = true → s.fetch = .ok w → decodeBits s.t w = .error e →
    step s = .refused (.notInScope w)

/-- R30, R131 (b): A32 state with an IT state that is not zero is refused, before anything is fetched (the place of the
check in the step is the model's choice, log entry 10). -/
def Obligations.IllFormedItStateIsRefused : Prop :=
  ∀ s : State, s.t = .a32 → s.itstate ≠ 0#8 → step s = .refused .illFormedLaunch

/-- The model's own adapter (log entries 8 and 9): the instruction of a table word, placed where the next step fetches,
is what the next step runs, whatever the state was. -/
def Obligations.PlacedTableWordRunsNext : Prop :=
  ∀ (s : State) (nbits w : Nat) (i : Instr), decodeTableWord nbits w = some i →
    step (s.withFetchWord nbits w) = exec i (s.withFetchWord nbits w)

/-! Conditions and the IT state. -/

/-- R27 (the spec's decision D5): the sixteen rows of the condition table. -/
def Obligations.ConditionTable : Prop :=
  ∀ s : State,
    s.conditionPassed 0b0000#4 = s.flagZ ∧ s.conditionPassed 0b0001#4 = !s.flagZ ∧
    s.conditionPassed 0b0010#4 = s.flagC ∧ s.conditionPassed 0b0011#4 = !s.flagC ∧
    s.conditionPassed 0b0100#4 = s.flagN ∧ s.conditionPassed 0b0101#4 = !s.flagN ∧
    s.conditionPassed 0b0110#4 = s.flagV ∧ s.conditionPassed 0b0111#4 = !s.flagV ∧
    s.conditionPassed 0b1000#4 = (s.flagC && !s.flagZ) ∧ s.conditionPassed 0b1001#4 = (!s.flagC || s.flagZ) ∧
    s.conditionPassed 0b1010#4 = (s.flagN == s.flagV) ∧ s.conditionPassed 0b1011#4 = (s.flagN != s.flagV) ∧
    s.conditionPassed 0b1100#4 = (!s.flagZ && s.flagN == s.flagV) ∧
    s.conditionPassed 0b1101#4 = (s.flagZ || s.flagN != s.flagV) ∧
    s.conditionPassed 0b1110#4 = true ∧ s.conditionPassed 0b1111#4 = true

/-- R27, R30 (the spec's decisions D5, D6): in T32 state a T1 instruction is conditional on `ITSTATE[7:4]` inside an IT
block, and always executes outside one. -/
def Obligations.T1ConditionComesFromItState : Prop :=
  ∀ (i : Instr) (s : State), i.iset = .t32 → s.t = .t32 →
    (s.itstate.extractLsb' 0 4 ≠ 0#4 → (decodedOf i s).cond = s.itstate.extractLsb' 4 4) ∧
    (s.itstate.extractLsb' 0 4 = 0#4 → s.conditionPassed (decodedOf i s).cond = true)

/-- R31 (the spec's decision D6): the IT state after any next state of any instruction, whatever the launch arguments:
A1 leaves it; T1 clears it if its low three bits are zero, and else shifts its low five bits left by one. The one
exception is the model's deduction (log entry 6): where an admitted UNPREDICTABLE case has taken T1 from T32 to A32, it is
zero, as R30 says of A32. -/
def Obligations.ItStateAdvance : Prop :=
  ∀ (i : Instr) (s t : State), exec i s = .next t →
    (i.iset = .a32 → t.itstate = s.itstate) ∧
    (i.iset = .t32 → s.itstate.extractLsb' 0 3 = 0#3 → t.itstate = 0#8) ∧
    (i.iset = .t32 → s.itstate.extractLsb' 0 3 ≠ 0#3 → ¬(s.t = .t32 ∧ t.t = .a32) ∨ (decodedOf i s).cases = [] →
      (∀ j, 5 ≤ j → t.itstate.getLsbD j = s.itstate.getLsbD j) ∧
      (∀ j, j < 4 → t.itstate.getLsbD (j + 1) = s.itstate.getLsbD j) ∧ t.itstate.getLsbD 0 = false) ∧
    (i.iset = .t32 → s.t = .t32 → t.t = .a32 → t.itstate = 0#8)

/-! The operation. -/

/-- R82, R86, R87: LDMDB A1 and LDMEA A1 complete, with the registers that the rules give. The hypotheses are those of
R82 (base not the PC, a list that is not empty, no writeback to a listed base), a passed condition, words that can be
read (R43, R44, R46) and a PC that can be set (R25, R89). -/
def Obligations.A1LoadsListedRegisters : Prop :=
  ∀ (cond : BitVec 4) (w : Bool) (rn : BitVec 4) (l : BitVec 16) (s : State) (n : Fin 15),
    rn.toNat = n.val → l ≠ 0#16 → ¬(w = true ∧ l.getLsbD n.val = true) → s.conditionPassed cond = true →
    LoadsReady s n l → PcReady s n l →
    ∃ t, exec (.ldmdbA1 cond w rn l) s = .next t ∧ exec (.ldmeaA1 cond w rn l) s = .next t ∧
      (∀ j : Fin 15, l.getLsbD j.val = true → s.memRead (wordAddress s n l j.val) = .ok (t.getX j)) ∧
      (w = true → t.getX n = s.getX n - BitVec.ofNat 32 (4 * bitCount l)) ∧
      (∀ j : Fin 15, l.getLsbD j.val = false → (w = true → j ≠ n) → t.getX j = s.getX j)

/-- R83, R86, R87: LDMDB T1 and LDMEA T1 complete, with the registers that the rules give. The hypotheses are those of
R83, a passed condition, words that can be read (R43, R44, R46) and a PC that can be set (R25, R89). -/
def Obligations.T1LoadsListedRegisters : Prop :=
  ∀ (w : Bool) (rn : BitVec 4) (p m : Bool) (l : BitVec 14) (s : State) (n : Fin 15),
    rn.toNat = n.val → 2 ≤ bitCount (listT1 p m l) → ¬(p = true ∧ m = true) →
    ¬(w = true ∧ (listT1 p m l).getLsbD n.val = true) → l.getLsbD 13 = false →
    ¬(p = true ∧ s.inITBlock = true ∧ s.lastInITBlock = false) → s.conditionPassed s.itCond = true →
    LoadsReady s n (listT1 p m l) → PcReady s n (listT1 p m l) →
    ∃ t, exec (.ldmdbT1 w rn p m l) s = .next t ∧ exec (.ldmeaT1 w rn p m l) s = .next t ∧
      (∀ j : Fin 15, (listT1 p m l).getLsbD j.val = true →
        s.memRead (wordAddress s n (listT1 p m l) j.val) = .ok (t.getX j)) ∧
      (w = true → t.getX n = s.getX n - BitVec.ofNat 32 (4 * bitCount (listT1 p m l))) ∧
      (∀ j : Fin 15, (listT1 p m l).getLsbD j.val = false → (w = true → j ≠ n) → t.getX j = s.getX j)

/-- R85: the words lie at consecutive word addresses that end just below the base. The register with the j-th lowest
number has the address `start + 4*j`; the next listed register's is 4 above; the last word's is `x[n] - 4`. -/
def Obligations.WordAddressesEndJustBelowBase : Prop :=
  ∀ (s : State) (n : Fin 15) (l : BitVec 16) (i : Nat), i < 16 → l.getLsbD i = true →
    (listedBelow l i = 0 → wordAddress s n l i = s.getX n - BitVec.ofNat 32 (4 * bitCount l)) ∧
    (∀ k, i < k → k < 16 → l.getLsbD k = true → (∀ j, i < j → j < k → l.getLsbD j = false) →
      wordAddress s n l k = wordAddress s n l i + 4#32) ∧
    ((∀ k, i < k → k < 16 → l.getLsbD k = false) → wordAddress s n l i = s.getX n - 4#32)

/-- R85: the whole stage of the address computation. With `start = x[n] - 4*k`, the instruction faults if `start` is not
a multiple of 4, and else if `0 < x[n] < 4*k`; and where it completes, the register with `j` listed registers below it
has the word at `start + 4*j`, and the last of the `k` words is at `x[n] - 4`. -/
def Obligations.AddressComputation : Prop :=
  ∀ (i : Instr) (s : State) (n : Fin 15) (start : Word), Operates i s n →
    start = s.getX n - BitVec.ofNat 32 (4 * bitCount (decodedOf i s).registers) →
    (start.toNat % 4 ≠ 0 → exec i s = .fault (.dataAbort .alignment start)) ∧
    (start.toNat % 4 = 0 → 0 < (s.getX n).toNat → (s.getX n).toNat < 4 * bitCount (decodedOf i s).registers →
      exec i s = .fault (.addressWrap (s.getX n))) ∧
    start + BitVec.ofNat 32 (4 * (bitCount (decodedOf i s).registers - 1)) = s.getX n - 4#32 ∧
    (LoadsReady s n (decodedOf i s).registers → PcReady s n (decodedOf i s).registers →
      ∃ t, exec i s = .next t ∧ ∀ j : Fin 15, (decodedOf i s).registers.getLsbD j.val = true →
        s.memRead (start + BitVec.ofNat 32 (4 * listedBelow (decodedOf i s).registers j.val)) = .ok (t.getX j))

/-- R86: the loads of R0 to R14. With the operation reached and the range checks passed: if every word can be read and
the PC can be set, each listed register receives the word at its address and no unlisted register is written by this
stage (only writeback writes one); and if a word cannot be read, the step ends with the data abort of the first such
word in order of rising address. -/
def Obligations.LoadsInRegisterOrder : Prop :=
  ∀ (i : Instr) (s : State) (n : Fin 15), Operates i s n →
    (LoadsReady s n (decodedOf i s).registers → PcReady s n (decodedOf i s).registers →
      ∃ t, exec i s = .next t ∧
        (∀ j : Fin 15, (decodedOf i s).registers.getLsbD j.val = true →
          s.memRead (wordAddress s n (decodedOf i s).registers j.val) = .ok (t.getX j)) ∧
        (∀ j : Fin 15, (decodedOf i s).registers.getLsbD j.val = false →
          ((decodedOf i s).wback = true → j ≠ n) → t.getX j = s.getX j)) ∧
    (∀ (j : Nat) (f : Fault), wordAligned (s.getX n) = true → wraps (s.getX n) (decodedOf i s).registers = false →
      j < bitCount (decodedOf i s).registers →
      (∀ k, k < j →
        s.reads (startAddress (s.getX n) (decodedOf i s).registers + BitVec.ofNat 32 (4 * k)) = true) →
      s.memRead (startAddress (s.getX n) (decodedOf i s).registers + BitVec.ofNat 32 (4 * j)) = .error f →
      exec i s = .fault f ∧ ∃ kind,
        f = .dataAbort kind (startAddress (s.getX n) (decodedOf i s).registers + BitVec.ofNat 32 (4 * j)))

/-- R87: writeback gives the base the address of the lowest accessed word, computed from the base before the
instruction, whether or not the PC was loaded, and never reaches a listed base; without it a base that is not listed
keeps its value, and a listed one has its word. -/
def Obligations.WritebackGivesLowestAddress : Prop :=
  ∀ (i : Instr) (s : State) (n : Fin 15), Operates i s n → LoadsReady s n (decodedOf i s).registers →
    PcReady s n (decodedOf i s).registers →
    ∃ t, exec i s = .next t ∧
      ((decodedOf i s).wback = true → (decodedOf i s).registers.getLsbD n.val = false ∧
        t.getX n = s.getX n - BitVec.ofNat 32 (4 * bitCount (decodedOf i s).registers)) ∧
      ((decodedOf i s).wback = false →
        if (decodedOf i s).registers.getLsbD n.val = true
        then s.memRead (wordAddress s n (decodedOf i s).registers n.val) = .ok (t.getX n)
        else t.getX n = s.getX n)

/-- R88, R89 (the selection by the low bits is the spec's decision D12): the PC receives the word just below the base,
as an interworking branch. Bits [1:0] of the word: x1 go to T32 with bit 0 cleared, 00 to A32; 10 faults, or does what
A32_FORCE_ALIGN_PC says. -/
def Obligations.LoadedPcBranches : Prop :=
  ∀ (i : Instr) (s : State) (n : Fin 15) (v : Word), Operates i s n →
    (decodedOf i s).registers.getLsbD 15 = true → LoadsReady s n (decodedOf i s).registers →
    s.memRead (s.getX n - 4#32) = .ok v →
    (v.getLsbD 0 = true → ∃ t, exec i s = .next t ∧ t.t = .t32 ∧ t.pc = v &&& ~~~1#32) ∧
    (v.extractLsb' 0 2 = 0b00#2 → ∃ t, exec i s = .next t ∧ t.t = .a32 ∧ t.pc = v) ∧
    (v.extractLsb' 0 2 = 0b10#2 → s.params.forceAlignPc = none →
      exec i s = .fault (.unpredictableBranchAlign v)) ∧
    (v.extractLsb' 0 2 = 0b10#2 → s.params.forceAlignPc = some true →
      ∃ t, exec i s = .next t ∧ t.t = .a32 ∧ t.pc = v &&& ~~~3#32) ∧
    (v.extractLsb' 0 2 = 0b10#2 → s.params.forceAlignPc = some false →
      ∃ t, exec i s = .next t ∧ t.t = .a32 ∧ t.pc = v)

/-- R25 (the spec's decision D13): an instruction that executes without loading the PC ends at `pc + 4` in the same
instruction set, and faults where that would pass the top of the address space. -/
def Obligations.PcAdvancesByFour : Prop :=
  ∀ (i : Instr) (s : State) (n : Fin 15), Operates i s n → (decodedOf i s).registers.getLsbD 15 = false →
    LoadsReady s n (decodedOf i s).registers →
    (s.pc.toNat < 0xFFFFFFFC → ∃ t, exec i s = .next t ∧ t.pc = s.pc + 4#32 ∧ t.t = s.t) ∧
    (0xFFFFFFFC ≤ s.pc.toNat → exec i s = .fault (.pcWrap s.pc))

/-- R90 (the spec's decisions D7, D13): an instruction with a defined Decode whose condition fails does nothing but
advance the PC and, in T32, the IT state; it faults only where the advance would pass the top. -/
def Obligations.FailedConditionOnlyAdvances : Prop :=
  ∀ (i : Instr) (s : State), Skips i s →
    (s.pc.toNat < 0xFFFFFFFC → i.iset = .a32 → exec i s = .next { s with pc := s.pc + 4#32 }) ∧
    (s.pc.toNat < 0xFFFFFFFC → i.iset = .t32 →
      exec i s = .next { s with pc := s.pc + 4#32, itstate := itAdvance s.itstate }) ∧
    (0xFFFFFFFC ≤ s.pc.toNat → exec i s = .fault (.pcWrap s.pc))

/-- R90, for every instruction and every CU_POLICY (that an admitted UNPREDICTABLE case needs a passed condition to load
is the model's deduction, log entry 6): a next state after a failed condition differs from the state before only in the
advance of the PC and, in T32, of the IT state, and in the model's own count of draws. -/
def Obligations.FailedConditionNeverLoads : Prop :=
  ∀ (i : Instr) (s t : State), s.conditionPassed (decodedOf i s).cond = false → exec i s = .next t →
    (i.iset = .a32 → t = { s with pc := s.pc + 4#32, draws := t.draws }) ∧
    (i.iset = .t32 → t = { s with pc := s.pc + 4#32, itstate := itAdvance s.itstate, draws := t.draws })

/-- R101: LR and PC both in an A1 list is defined: R14 is loaded from `x[n] - 8` and the PC from `x[n] - 4`. -/
def Obligations.A1LoadsLrAndPcTogether : Prop :=
  ∀ (cond : BitVec 4) (w : Bool) (rn : BitVec 4) (l : BitVec 16) (s : State) (n : Fin 15),
    rn.toNat = n.val → l.extractLsb' 14 2 = 0b11#2 → ¬(w = true ∧ l.getLsbD n.val = true) →
    s.conditionPassed cond = true → LoadsReady s n l → PcReady s n l →
    ∃ t v, exec (.ldmdbA1 cond w rn l) s = .next t ∧ exec (.ldmeaA1 cond w rn l) s = .next t ∧
      s.memRead (s.getX n - 8#32) = .ok (t.getX 14) ∧ s.memRead (s.getX n - 4#32) = .ok v ∧
      branchTarget s.params.forceAlignPc v = .ok (t.pc, t.t)

/-- R102: the base in the list without writeback is defined in both encodings: it is no UNPREDICTABLE case, and in A1
there is then none at all. The addresses come from the base before the instruction, the base ends with its own word, and
the other listed registers' addresses are unaffected. -/
def Obligations.ListedBaseWithoutWriteback : Prop :=
  ∀ (i : Instr) (s : State) (n : Fin 15), baseReg (decodedOf i s).rn = some n →
    (decodedOf i s).registers.getLsbD n.val = true → (decodedOf i s).wback = false →
    UnpredCase.writebackBaseInList ∉ (decodedOf i s).cases ∧
    (i.iset = .a32 → (decodedOf i s).cases = []) ∧
    (Operates i s n → LoadsReady s n (decodedOf i s).registers → PcReady s n (decodedOf i s).registers →
      ∃ t, exec i s = .next t ∧
        s.memRead (startAddress (s.getX n) (decodedOf i s).registers
          + BitVec.ofNat 32 (4 * listedBelow (decodedOf i s).registers n.val)) = .ok (t.getX n) ∧
        (∀ j : Fin 15, (decodedOf i s).registers.getLsbD j.val = true →
          s.memRead (startAddress (s.getX n) (decodedOf i s).registers
            + BitVec.ofNat 32 (4 * listedBelow (decodedOf i s).registers j.val)) = .ok (t.getX j)))

/-- R99: LDMEA A1 has every bit, operand and effect of LDMDB A1; `LDMEA R0!, {R1, R2}` assembles to `E9300006`. -/
def Obligations.LdmeaA1IsLdmdbA1 : Prop :=
  (∀ (cond : BitVec 4) (w : Bool) (rn : BitVec 4) (l : BitVec 16) (s : State),
    encode (.ldmeaA1 cond w rn l) = encode (.ldmdbA1 cond w rn l) ∧
    decodedOf (.ldmeaA1 cond w rn l) s = decodedOf (.ldmdbA1 cond w rn l) s ∧
    exec (.ldmeaA1 cond w rn l) s = exec (.ldmdbA1 cond w rn l) s) ∧
  encode (.ldmeaA1 14#4 true 0#4 0x0006#16) = 0xE9300006#32

/-- R100: LDMEA T1 has every bit, operand and effect of LDMDB T1; `LDMEA.W R0!, {R1, R2}` assembles to `E930 0006`. -/
def Obligations.LdmeaT1IsLdmdbT1 : Prop :=
  (∀ (w : Bool) (rn : BitVec 4) (p m : Bool) (l : BitVec 14) (s : State),
    encode (.ldmeaT1 w rn p m l) = encode (.ldmdbT1 w rn p m l) ∧
    decodedOf (.ldmeaT1 w rn p m l) s = decodedOf (.ldmdbT1 w rn p m l) s ∧
    exec (.ldmeaT1 w rn p m l) s = exec (.ldmdbT1 w rn p m l) s) ∧
  encode (.ldmeaT1 true 0#4 false false 0x0006#14) = 0xE9300006#32

/-! Frames. -/

/-- R103: no instruction writes a condition flag or another field of the CPSR, whatever the launch arguments, but for
the IT advance of T32; and `T` changes only where the PC is loaded: the PC is in the list, or may be in the unspecified
set that CU_POLICY admits for an empty or single-register list; and of an instruction without an UNPREDICTABLE case, only
where the PC is in the list and the condition passed. (What `ITSTATE` is where an admitted case goes from T32 to A32 is
left to ItStateAdvance.) -/
def Obligations.FlagsAreNeverWritten : Prop :=
  ∀ (i : Instr) (s t : State), exec i s = .next t →
    t.flagN = s.flagN ∧ t.flagZ = s.flagZ ∧ t.flagC = s.flagC ∧ t.flagV = s.flagV ∧ t.dit = s.dit ∧
    (i.iset = .a32 → t.itstate = s.itstate) ∧
    (i.iset = .t32 → ¬(s.t = .t32 ∧ t.t = .a32) ∨ (decodedOf i s).cases = [] → t.itstate = itAdvance s.itstate) ∧
    (t.t ≠ s.t → (decodedOf i s).registers.getLsbD 15 = true ∨
      (decodedOf i s).cases = [.emptyList] ∨ (decodedOf i s).cases = [.singleRegisterT1]) ∧
    (t.t ≠ s.t → (decodedOf i s).cases = [] →
      (decodedOf i s).registers.getLsbD 15 = true ∧ s.conditionPassed (decodedOf i s).cond = true)

/-- R35, R22: the frame of a defined instruction. Unlisted registers other than a written-back base are unchanged; `T`
changes only if the PC is listed and the condition passed, `ITSTATE` only in T32; the flags, DIT, every byte of memory,
the launch arguments and the count of draws are unchanged; and after a failed condition no register changes. -/
def Obligations.DefinedInstructionFrame : Prop :=
  ∀ (i : Instr) (s t : State), (decodedOf i s).cases = [] → exec i s = .next t →
    (∀ j : Fin 15, (decodedOf i s).registers.getLsbD j.val = false →
      ((decodedOf i s).wback = true → j.val ≠ (decodedOf i s).rn.toNat) → t.getX j = s.getX j) ∧
    (t.t ≠ s.t → (decodedOf i s).registers.getLsbD 15 = true ∧ s.conditionPassed (decodedOf i s).cond = true) ∧
    (i.iset = .a32 → t.itstate = s.itstate) ∧
    t.flagN = s.flagN ∧ t.flagZ = s.flagZ ∧ t.flagC = s.flagC ∧ t.flagV = s.flagV ∧ t.dit = s.dit ∧
    (∀ a, t.mem.read a = s.mem.read a) ∧ t.params = s.params ∧ t.draws = s.draws ∧
    (s.conditionPassed (decodedOf i s).cond = false → ∀ j : Fin 15, t.getX j = s.getX j)

/-- R34, R42, R54: no step changes a byte of memory or a launch argument, under any CU_POLICY. -/
def Obligations.StepKeepsMemoryAndLaunchArguments : Prop :=
  ∀ s t : State, step s = .next t →
    t.mem = s.mem ∧ (∀ a, t.mem.read a = s.mem.read a) ∧ t.params = s.params ∧
    t.flagN = s.flagN ∧ t.flagZ = s.flagZ ∧ t.flagC = s.flagC ∧ t.flagV = s.flagV ∧ t.dit = s.dit

/-- R22: the base is the only general register read. A change of another register `j` before a defined instruction
changes nothing after it but that register itself, and not even that if it is listed and the condition passed. -/
def Obligations.OnlyTheBaseRegisterIsRead : Prop :=
  ∀ (i : Instr) (s : State) (n j : Fin 15) (v : Word), (decodedOf i s).cases = [] →
    baseReg (decodedOf i s).rn = some n → j ≠ n →
    match exec i s with
    | .next t =>
      ∃ u, exec i (s.setX j v) = .next u ∧ u.pc = t.pc ∧ u.t = t.t ∧ u.itstate = t.itstate ∧
        (∀ k : Fin 15, k ≠ j → u.getX k = t.getX k) ∧
        u.getX j = (if (decodedOf i s).registers.getLsbD j.val = true
            ∧ s.conditionPassed (decodedOf i s).cond = true then t.getX j else v)
    | .fault f => exec i (s.setX j v) = .fault f
    | .refused r => exec i (s.setX j v) = .refused r

/-- R28, R52, R140: DIT, HAS_DIT and HAS_LSMAOC change no result of a step: with any other values of the three, the
step does the same to everything else and leaves the three. -/
def Obligations.TimingBitsChangeNoResult : Prop :=
  ∀ (s : State) (dit hasDit hasLsmaoc : Bool),
    match step s with
    | .next t =>
      step { s with dit := dit, params := { s.params with hasDit := hasDit, hasLsmaoc := hasLsmaoc } }
        = .next { t with dit := dit, params := { t.params with hasDit := hasDit, hasLsmaoc := hasLsmaoc } }
    | .fault f =>
      step { s with dit := dit, params := { s.params with hasDit := hasDit, hasLsmaoc := hasLsmaoc } } = .fault f
    | .refused r =>
      step { s with dit := dit, params := { s.params with hasDit := hasDit, hasLsmaoc := hasLsmaoc } } = .refused r

/-! Faults of the operation. -/

/-- R46, R85 (the spec's decision D10): a base that is not a multiple of 4 ends the step with
`DataAbort(Alignment, start)`, before any read. -/
def Obligations.MisalignedBaseAborts : Prop :=
  ∀ (i : Instr) (s : State) (n : Fin 15), Operates i s n → (s.getX n).toNat % 4 ≠ 0 →
    exec i s = .fault (.dataAbort .alignment
      (s.getX n - BitVec.ofNat 32 (4 * bitCount (decodedOf i s).registers)))

/-- R43, R85 (the spec's decision D11): a word-aligned base with `0 < x[n] < 4*k` ends the step with AddressWrap; a base
of 0 does not wrap. -/
def Obligations.AddressWrapFaults : Prop :=
  ∀ (i : Instr) (s : State) (n : Fin 15), Operates i s n → (s.getX n).toNat % 4 = 0 →
    (0 < (s.getX n).toNat → (s.getX n).toNat < 4 * bitCount (decodedOf i s).registers →
      exec i s = .fault (.addressWrap (s.getX n))) ∧
    (s.getX n = 0#32 → ∀ f, exec i s = .fault f → ∀ base, f ≠ .addressWrap base)

/-- R14, R98 (the spec's decision D8): under the default CU_POLICY, an instruction with any UNPREDICTABLE case faults
with the first one in the order of the Decode text, whatever its condition. -/
def Obligations.DefaultPolicyFaultsWithFirstCase : Prop :=
  ∀ (i : Instr) (s : State) (c : UnpredCase) (cs : List UnpredCase), s.params.cuPolicy = .default →
    (decodedOf i s).cases = c :: cs → exec i s = .fault (.unpredictable c (encode i))

/-- R98: two or more cases at once fault with the first name, whatever CU_POLICY says. -/
def Obligations.TwoCasesAlwaysFault : Prop :=
  ∀ (i : Instr) (s : State) (c c' : UnpredCase) (cs : List UnpredCase),
    (decodedOf i s).cases = c :: c' :: cs → exec i s = .fault (.unpredictable c (encode i))

/-- R82, R83, R98: which case is first. For A1: BaseIsPC, EmptyList, WritebackBaseInList. For T1: BaseIsPC, EmptyList,
SingleRegisterT1, LRandPC_T1, WritebackBaseInList, R13InListT1, PCLoadInsideITBlock. -/
def Obligations.FirstUnpredictableCase : Prop :=
  ∀ (i : Instr) (s : State),
    (decodedOf i s).cases.head? =
      if (decodedOf i s).rn = 0b1111#4 then some .baseIsPC
      else if bitCount (decodedOf i s).registers = 0 then some .emptyList
      else if i.iset = .t32 ∧ bitCount (decodedOf i s).registers = 1 then some .singleRegisterT1
      else if i.iset = .t32 ∧ (decodedOf i s).registers.extractLsb' 14 2 = 0b11#2 then some .lrAndPcT1
      else if (decodedOf i s).wback = true ∧ (decodedOf i s).registers.getLsbD (decodedOf i s).rn.toNat = true then
        some .writebackBaseInList
      else if i.iset = .t32 ∧ (decodedOf i s).registers.getLsbD 13 = true then some .r13InListT1
      else if i.iset = .t32 ∧ (decodedOf i s).registers.getLsbD 15 = true ∧ s.inITBlock = true
          ∧ s.lastInITBlock = false then some .pcLoadInsideITBlock
      else none

/-- R91: a base that is the PC faults with BaseIsPC in both encodings, whatever CU_POLICY says. -/
def Obligations.BaseIsPcAlwaysFaults : Prop :=
  ∀ (i : Instr) (s : State), (decodedOf i s).rn = 0b1111#4 → exec i s = .fault (.unpredictable .baseIsPC (encode i))

/-- R97: a T1 load of the PC inside an IT block and not at its end faults, whatever CU_POLICY says: with
PCLoadInsideITBlock, unless another case comes before it (R98). -/
def Obligations.PcLoadInsideItBlockFaults : Prop :=
  ∀ (i : Instr) (s : State), i.iset = .t32 → (decodedOf i s).registers.getLsbD 15 = true → s.inITBlock = true →
    s.lastInITBlock = false →
    ∃ c, (decodedOf i s).cases.head? = some c ∧ exec i s = .fault (.unpredictable c (encode i)) ∧
      ((decodedOf i s).cases = [c] → c = .pcLoadInsideITBlock)

/-- R92, R15 (UNKNOWN is a free value, log entry 5): with writeback to a listed base as the only case and CU_POLICY
admitting it, the instruction is undefined, or does nothing but advance, or (if its condition passes) performs every
load and leaves the base with some value, free of all constraint. -/
def Obligations.AdmittedWritebackBaseInList : Prop :=
  ∀ (i : Instr) (s : State) (n : Fin 15), baseReg (decodedOf i s).rn = some n →
    (decodedOf i s).cases = [.writebackBaseInList] → s.params.cuPolicy.writebackBaseInList = .allow →
    exec i s = .fault (.undefinedInstruction (encode i)) ∨
    exec i s = finish i.iset (s.advance.map State.drawn) ∨
    (s.conditionPassed (decodedOf i s).cond = true ∧ ∃ u : Word,
      exec i s = finish i.iset ((s.loadMultiple n (decodedOf i s).registers true u).map State.drawn) ∧
      ∀ t, exec i s = .next t → t.getX n = u ∧
        ∀ j : Fin 15, j ≠ n →
          if (decodedOf i s).registers.getLsbD j.val = true
          then s.memRead (wordAddress s n (decodedOf i s).registers j.val) = .ok (t.getX j)
          else t.getX j = s.getX j)

/-- R96, R15 (UNKNOWN is a free value, log entry 5): with R13 in a T1 list as the only case and CU_POLICY admitting it,
the instruction is undefined, or does nothing but advance, or (if its condition passes) performs every load, R13's word
counted, and leaves R13 with some value, free of all constraint. -/
def Obligations.AdmittedR13InList : Prop :=
  ∀ (i : Instr) (s : State) (n : Fin 15), baseReg (decodedOf i s).rn = some n →
    (decodedOf i s).cases = [.r13InListT1] → s.params.cuPolicy.r13InListT1 = .allow →
    exec i s = .fault (.undefinedInstruction (encode i)) ∨
    exec i s = finish i.iset (s.advance.map State.drawn) ∨
    (s.conditionPassed (decodedOf i s).cond = true ∧ ∃ u : Word,
      exec i s = finish i.iset ((s.loadMultiple n (decodedOf i s).registers (decodedOf i s).wback u).map
        (fun v => (v.setX 13 u).drawn)) ∧
      ∀ t, exec i s = .next t → t.getX 13 = u ∧
        ∀ j : Fin 15, j ≠ 13 →
          if (decodedOf i s).registers.getLsbD j.val = true
          then s.memRead (wordAddress s n (decodedOf i s).registers j.val) = .ok (t.getX j)
          else if (decodedOf i s).wback = true ∧ j = n
          then t.getX j = startAddress (s.getX n) (decodedOf i s).registers
          else t.getX j = s.getX j)

/-- R93 (the open parts are free values, log entries 5 and 6): with an empty list as the only case and CU_POLICY
admitting it, the instruction is undefined, or does nothing but advance, or (if its condition passes) executes for some
set of registers, R15 among the possibilities, and the base, on writeback, ends 0 to 16 words below where it was. -/
def Obligations.AdmittedEmptyList : Prop :=
  ∀ (i : Instr) (s : State) (n : Fin 15), baseReg (decodedOf i s).rn = some n →
    (decodedOf i s).cases = [.emptyList] → s.params.cuPolicy.emptyList = .allow →
    exec i s = .fault (.undefinedInstruction (encode i)) ∨
    exec i s = finish i.iset (s.advance.map State.drawn) ∨
    (s.conditionPassed (decodedOf i s).cond = true ∧ ∃ (set : BitVec 16) (m : Nat), m ≤ 16 ∧
      exec i s = finish i.iset ((s.loadSetAndBase (decodedOf i s) n set m).map State.drawn) ∧
      ∀ t, exec i s = .next t →
        (if set.getLsbD 15 = true
          then ∃ v, s.memRead (s.getX n - 4#32) = .ok v ∧ branchTarget s.params.forceAlignPc v = .ok (t.pc, t.t)
          else t.pc = s.pc + 4#32 ∧ t.t = s.t) ∧
        ∀ j : Fin 15,
          if (decodedOf i s).wback = true ∧ j = n then t.getX j = s.getX n - BitVec.ofNat 32 (4 * m)
          else if set.getLsbD j.val = true then s.memRead (wordAddress s n set j.val) = .ok (t.getX j)
          else t.getX j = s.getX j)

/-- R94 (the open parts are free values, log entries 5 and 6): with one register in a T1 list as the only case and
CU_POLICY admitting it, the instruction is undefined, or does nothing but advance, or (if its condition passes)
executes for some set of registers, the listed one alone and sets with R15 among the possibilities, with the writeback
of that set. -/
def Obligations.AdmittedSingleRegister : Prop :=
  ∀ (i : Instr) (s : State) (n : Fin 15), baseReg (decodedOf i s).rn = some n →
    (decodedOf i s).cases = [.singleRegisterT1] → s.params.cuPolicy.singleRegisterT1 = .allow →
    exec i s = .fault (.undefinedInstruction (encode i)) ∨
    exec i s = finish i.iset (s.advance.map State.drawn) ∨
    (s.conditionPassed (decodedOf i s).cond = true ∧ ∃ (set : BitVec 16) (u : Word),
      exec i s = finish i.iset ((s.loadSet (decodedOf i s) n set (decodedOf i s).wback u).map State.drawn) ∧
      ∀ t, exec i s = .next t →
        (if set.getLsbD 15 = true
          then ∃ v, s.memRead (s.getX n - 4#32) = .ok v ∧ branchTarget s.params.forceAlignPc v = .ok (t.pc, t.t)
          else t.pc = s.pc + 4#32 ∧ t.t = s.t) ∧
        ∀ j : Fin 15,
          if (decodedOf i s).wback = true ∧ j = n then
            t.getX j = if set.getLsbD n.val = true then u else startAddress (s.getX n) set
          else if set.getLsbD j.val = true then s.memRead (wordAddress s n set j.val) = .ok (t.getX j)
          else t.getX j = s.getX j)

/-- R95 (addresses and base drawn, log entries 5 and 7; that the loads need a passed condition and UNDEF does not is the
model's deduction, log entry 6): with LR and PC both in a T1 list as the only case and CU_POLICY admitting it, the
instruction is undefined, or does nothing but advance, or (if its condition passes) loads the listed registers, R14 and
R15 each or not, from some addresses, and on writeback leaves the base with some value. Every register it loads, but a
written-back base, receives the word at its address; every other one but the written-back base is unchanged; and the PC
branches to its word if it is loaded, and else advances. -/
def Obligations.AdmittedLrAndPc : Prop :=
  ∀ (i : Instr) (s : State) (n : Fin 15), baseReg (decodedOf i s).rn = some n →
    (decodedOf i s).cases = [.lrAndPcT1] → s.params.cuPolicy.lrAndPcT1 = .allow →
    exec i s = .fault (.undefinedInstruction (encode i)) ∨
    exec i s = finish i.iset (s.advance.map State.drawn) ∨
    (s.conditionPassed (decodedOf i s).cond = true ∧ ∃ (lr pc : Bool) (address : Nat → Word) (base : Word),
      exec i s = finish i.iset ((s.loadLrAndPc n (lrAndPcSet (decodedOf i s).registers lr pc) (decodedOf i s).wback
        address base).map State.drawn) ∧
      ∀ t, exec i s = .next t →
        ((decodedOf i s).wback = true → t.getX n = base) ∧
        (if pc = true
          then ∃ v, s.memRead (address 15) = .ok v ∧ branchTarget s.params.forceAlignPc v = .ok (t.pc, t.t)
          else t.pc = s.pc + 4#32 ∧ t.t = s.t) ∧
        ∀ j : Fin 15, ((decodedOf i s).wback = true → j ≠ n) →
          if (decodedOf i s).registers.getLsbD j.val = true ∧ (j = 14 → lr = true)
          then s.memRead (address j.val) = .ok (t.getX j)
          else t.getX j = s.getX j)

/-! Memory. -/

/-- R44, R45 (the spec's decision D10): an aligned word of which every byte is admitted reads as its four bytes in the
order BIGEND gives; a misaligned address aborts before MemAdmit is asked. -/
def Obligations.MemReadByteOrder : Prop :=
  ∀ (s : State) (a : Word),
    (a.toNat % 4 ≠ 0 → s.memRead a = .error (.dataAbort .alignment a)) ∧
    (∀ b0 b1 b2 b3, a.toNat % 4 = 0 → s.loadByte a.toNat = .ok b0 → s.loadByte (a.toNat + 1) = .ok b1 →
      s.loadByte (a.toNat + 2) = .ok b2 → s.loadByte (a.toNat + 3) = .ok b3 →
      (s.params.bigEnd = false → ∃ v, s.memRead a = .ok v ∧ v.extractLsb' 0 8 = b0 ∧ v.extractLsb' 8 8 = b1 ∧
        v.extractLsb' 16 8 = b2 ∧ v.extractLsb' 24 8 = b3) ∧
      (s.params.bigEnd = true → ∃ v, s.memRead a = .ok v ∧ v.extractLsb' 24 8 = b0 ∧ v.extractLsb' 16 8 = b1 ∧
        v.extractLsb' 8 8 = b2 ∧ v.extractLsb' 0 8 = b3))

/-- R48 (the spec's decision D14): an aligned instruction of which every byte can be read is fetched little-endian: an
A32 word from its four bytes; a T32 pair from two halfwords, the one at the lower address in bits [31:16]. BIGEND changes
nothing of the fetch. -/
def Obligations.FetchIgnoresDataByteOrder : Prop :=
  (∀ (s : State) (b0 b1 b2 b3 : Byte), pcAligned s.t s.pc = true →
    s.loadByte s.pc.toNat = .ok b0 → s.loadByte (s.pc.toNat + 1) = .ok b1 →
    s.loadByte (s.pc.toNat + 2) = .ok b2 → s.loadByte (s.pc.toNat + 3) = .ok b3 →
    (s.t = .a32 → s.fetch = .ok (b3 ++ b2 ++ b1 ++ b0)) ∧ (s.t = .t32 → s.fetch = .ok (b1 ++ b0 ++ b3 ++ b2))) ∧
  ∀ (s : State) (b : Bool), State.fetch { s with params := { s.params with bigEnd := b } } = s.fetch

/-- R44, R46 (the spec's decision D10): a data abort of a word names that word's own address, for alignment exactly when
it is not a multiple of 4. That the kind of a refused word is that of its lowest refused byte is the model's choice (log
entry 3). -/
def Obligations.ReadFaultsNameTheirAddress : Prop :=
  ∀ (s : State) (a : Word) (f : Fault), s.memRead a = .error f →
    (a.toNat % 4 ≠ 0 ∧ f = .dataAbort .alignment a) ∨
    (a.toNat % 4 = 0 ∧ ∃ why, f = .dataAbort (.refused why) a ∧
      ∃ k, k < 4 ∧ s.loadByte (a.toNat + k) = .error why ∧ ∀ j, j < k → ∃ b, s.loadByte (a.toNat + j) = .ok b)

/-! Whole-machine rules. -/

/-- R26, R30, R131 (b), R40: every step keeps a formed state formed: `T = 0` implies `ITSTATE = 0`, the memory image
stays in its canonical form, and `pc` stays aligned for `T` unless A32_FORCE_ALIGN_PC lets a PC load break that. -/
def Obligations.StepKeepsFormed : Prop :=
  ∀ s t : State, s.Formed → step s = .next t → t.Formed

/-- The reset state, whose values are the model's choice (log entries 1 to 5), is formed. -/
def Obligations.ResetIsFormed : Prop := State.reset.Formed

/-- The model's choice of an empty image at reset (log entries 1 and 2): nothing runs until a program is placed. -/
def Obligations.ResetFetchesNothing : Prop := step State.reset = .fault (.prefetchAbort 0#32)

/-- R31: a T1 instruction that loads the PC leaves `ITSTATE = 0`, so the target of the branch always starts outside an
IT block. -/
def Obligations.LoadedPcStartsOutsideItBlock : Prop :=
  ∀ (i : Instr) (s t : State) (n : Fin 15), s.t = .t32 → i.iset = .t32 → Operates i s n →
    (decodedOf i s).registers.getLsbD 15 = true → exec i s = .next t → t.itstate = 0#8

/-- R123 (the spec's decision D17): a run stops normally, and fetches nothing, where `pc == HALT_PC`; the run of a
launch state there is at its end at once. -/
def Obligations.RunEndsAtHaltPc : Prop :=
  ∀ (s : State) (k : Nat), s.launchFormed = true → s.pc = s.params.haltPc → runFrom k s = .final s

/-- R54, R123: over a whole run the memory image and the launch arguments stay those of the launch, and the final state
is at HALT_PC. -/
def Obligations.RunsNeverChangeTheImage : Prop :=
  ∀ (k : Nat) (s t : State), runFrom k s = .final t →
    t.mem = s.mem ∧ t.params = s.params ∧ t.pc = s.params.haltPc
end

