-- ==== Sys2Proof/Laws/Encode.lean ====
section
/-! SUPPORT. The bits of the encoder, one by one (spec/30_encoding.md R61, R63). -/

namespace Sys2Proof

theorem getLsbD_encodeA1 (cond : BitVec 4) (w : Bool) (rn : BitVec 4) (l : BitVec 16) (j : Nat) :
    (encodeA1 cond w rn l).getLsbD j =
      if j < 16 then l.getLsbD j
      else if j < 20 then rn.getLsbD (j - 16)
      else if j = 20 then true
      else if j = 21 then w
      else if j < 28 then (0b100100#6).getLsbD (j - 22)
      else cond.getLsbD (j - 28) := by
  have h : (encodeA1 cond w rn l).getLsbD j = BitVec.getLsbD (w := 4 + 3 + 1 + 1 + 1 + 1 + 1 + 4 + 16)
    (cond ++ 0b100#3 ++ 0b1#1 ++ 0b0#1 ++ 0b0#1 ++ BitVec.ofBool w ++ 0b1#1 ++ rn ++ l) j := rfl
  rw [h]
  simp only [BitVec.getLsbD_append]
  by_cases hj : j < 28
  · interval_cases j <;> simp
  · simp only [show ¬j < 16 by omega, show ¬j - 16 < 4 by omega, show ¬j - 16 - 4 < 1 by omega,
      show ¬j - 16 - 4 - 1 < 1 by omega, show ¬j - 16 - 4 - 1 - 1 < 1 by omega,
      show ¬j - 16 - 4 - 1 - 1 - 1 < 1 by omega, show ¬j - 16 - 4 - 1 - 1 - 1 - 1 < 1 by omega,
      show ¬j - 16 - 4 - 1 - 1 - 1 - 1 - 1 < 3 by omega, show ¬j < 20 by omega, show j ≠ 20 by omega,
      show j ≠ 21 by omega, hj, if_false]
    exact congrArg _ (by omega)

theorem getLsbD_encodeT1 (w : Bool) (rn : BitVec 4) (p m : Bool) (l : BitVec 14) (j : Nat) :
    (encodeT1 w rn p m l).getLsbD j =
      if j < 14 then l.getLsbD j
      else if j = 14 then m
      else if j = 15 then p
      else if j < 20 then rn.getLsbD (j - 16)
      else if j = 20 then true
      else if j = 21 then w
      else (0b1110100100#10).getLsbD (j - 22) := by
  have h : (encodeT1 w rn p m l).getLsbD j = BitVec.getLsbD (w := 7 + 2 + 1 + 1 + 1 + 4 + 1 + 1 + 14)
    (0b1110100#7 ++ 0b10#2 ++ 0b0#1 ++ BitVec.ofBool w ++ 0b1#1 ++ rn ++ BitVec.ofBool p ++ BitVec.ofBool m ++ l)
    j := rfl
  rw [h]
  simp only [BitVec.getLsbD_append]
  by_cases hj : j < 32
  · interval_cases j <;> simp
  · rw [BitVec.getLsbD_of_ge (0b1110100100#10) _ (by omega)]
    simp only [show ¬j < 14 by omega, show ¬j - 14 < 1 by omega, show ¬j - 14 - 1 < 1 by omega,
      show ¬j - 14 - 1 - 1 < 4 by omega, show ¬j - 14 - 1 - 1 - 4 < 1 by omega,
      show ¬j - 14 - 1 - 1 - 4 - 1 < 1 by omega, show ¬j - 14 - 1 - 1 - 4 - 1 - 1 < 1 by omega,
      show ¬j - 14 - 1 - 1 - 4 - 1 - 1 - 1 < 2 by omega, show j ≠ 14 by omega, show j ≠ 15 by omega,
      show ¬j < 20 by omega, show j ≠ 20 by omega, show j ≠ 21 by omega, if_false]
    exact BitVec.getLsbD_of_ge _ _ (by omega)

/-! The fixed bits of an encoded instruction (R62, R64). -/

theorem encodeA1_fixed (cond : BitVec 4) (w : Bool) (rn : BitVec 4) (l : BitVec 16) :
    encodeA1 cond w rn l &&& maskA1 = matchA1 := by
  apply BitVec.eq_of_getLsbD_eq
  intro j hj
  rw [BitVec.getLsbD_and, getLsbD_encodeA1]
  interval_cases j <;> simp [maskA1, matchA1]

theorem encodeT1_fixed (w : Bool) (rn : BitVec 4) (p m : Bool) (l : BitVec 14) :
    encodeT1 w rn p m l &&& maskT1 = matchT1 := by
  apply BitVec.eq_of_getLsbD_eq
  intro j hj
  rw [BitVec.getLsbD_and, getLsbD_encodeT1]
  interval_cases j <;> simp [maskT1, matchT1]

end Sys2Proof
end

