-- ==== Sys2Proof/Laws/State.lean ====
section
/-! SUPPORT. The fields of the state after each named update, and the reads of a register after a register write. -/

namespace Sys2Proof.Machine

/-! `setX`. -/

@[simp] theorem State.setX_pc (s : State) (i v) : (s.setX i v).pc = s.pc := rfl
@[simp] theorem State.setX_flagN (s : State) (i v) : (s.setX i v).flagN = s.flagN := rfl
@[simp] theorem State.setX_flagZ (s : State) (i v) : (s.setX i v).flagZ = s.flagZ := rfl
@[simp] theorem State.setX_flagC (s : State) (i v) : (s.setX i v).flagC = s.flagC := rfl
@[simp] theorem State.setX_flagV (s : State) (i v) : (s.setX i v).flagV = s.flagV := rfl
@[simp] theorem State.setX_t (s : State) (i v) : (s.setX i v).t = s.t := rfl
@[simp] theorem State.setX_itstate (s : State) (i v) : (s.setX i v).itstate = s.itstate := rfl
@[simp] theorem State.setX_dit (s : State) (i v) : (s.setX i v).dit = s.dit := rfl
@[simp] theorem State.setX_mem (s : State) (i v) : (s.setX i v).mem = s.mem := rfl
@[simp] theorem State.setX_params (s : State) (i v) : (s.setX i v).params = s.params := rfl
@[simp] theorem State.setX_draws (s : State) (i v) : (s.setX i v).draws = s.draws := rfl

@[simp] theorem State.getX_setX_self (s : State) (i : Fin 15) (v : Word) : (s.setX i v).getX i = v := by
  simp [State.getX, State.setX]

theorem State.getX_setX_of_ne (s : State) {i j : Fin 15} (v : Word) (h : j ≠ i) :
    (s.setX i v).getX j = s.getX j := by
  have hv : i.val ≠ j.val := fun e => h (Fin.ext e.symm)
  simp [State.getX, State.setX, hv]

/-! `setPc`. -/

@[simp] theorem State.setPc_pc (s : State) (p) : (s.setPc p).pc = p.1 := rfl
@[simp] theorem State.setPc_t (s : State) (p) : (s.setPc p).t = p.2 := rfl
@[simp] theorem State.setPc_x (s : State) (p) : (s.setPc p).x = s.x := rfl
@[simp] theorem State.setPc_getX (s : State) (p i) : (s.setPc p).getX i = s.getX i := rfl
@[simp] theorem State.setPc_flagN (s : State) (p) : (s.setPc p).flagN = s.flagN := rfl
@[simp] theorem State.setPc_flagZ (s : State) (p) : (s.setPc p).flagZ = s.flagZ := rfl
@[simp] theorem State.setPc_flagC (s : State) (p) : (s.setPc p).flagC = s.flagC := rfl
@[simp] theorem State.setPc_flagV (s : State) (p) : (s.setPc p).flagV = s.flagV := rfl
@[simp] theorem State.setPc_itstate (s : State) (p) : (s.setPc p).itstate = s.itstate := rfl
@[simp] theorem State.setPc_dit (s : State) (p) : (s.setPc p).dit = s.dit := rfl
@[simp] theorem State.setPc_mem (s : State) (p) : (s.setPc p).mem = s.mem := rfl
@[simp] theorem State.setPc_params (s : State) (p) : (s.setPc p).params = s.params := rfl
@[simp] theorem State.setPc_draws (s : State) (p) : (s.setPc p).draws = s.draws := rfl

/-! `drawn`. -/

@[simp] theorem State.drawn_x (s : State) : s.drawn.x = s.x := rfl
@[simp] theorem State.drawn_getX (s : State) (i) : s.drawn.getX i = s.getX i := rfl
@[simp] theorem State.drawn_pc (s : State) : s.drawn.pc = s.pc := rfl
@[simp] theorem State.drawn_flagN (s : State) : s.drawn.flagN = s.flagN := rfl
@[simp] theorem State.drawn_flagZ (s : State) : s.drawn.flagZ = s.flagZ := rfl
@[simp] theorem State.drawn_flagC (s : State) : s.drawn.flagC = s.flagC := rfl
@[simp] theorem State.drawn_flagV (s : State) : s.drawn.flagV = s.flagV := rfl
@[simp] theorem State.drawn_t (s : State) : s.drawn.t = s.t := rfl
@[simp] theorem State.drawn_itstate (s : State) : s.drawn.itstate = s.itstate := rfl
@[simp] theorem State.drawn_dit (s : State) : s.drawn.dit = s.dit := rfl
@[simp] theorem State.drawn_mem (s : State) : s.drawn.mem = s.mem := rfl
@[simp] theorem State.drawn_params (s : State) : s.drawn.params = s.params := rfl
@[simp] theorem State.drawn_draws (s : State) : s.drawn.draws = s.draws + 1 := rfl

/-! `itAfterBranch`. -/

@[simp] theorem State.itAfterBranch_a32 (s : State) (b) : s.itAfterBranch .a32 b = s := rfl
@[simp] theorem State.itAfterBranch_x (s : State) (t b) : (s.itAfterBranch t b).x = s.x := by
  unfold State.itAfterBranch; split <;> rfl
@[simp] theorem State.itAfterBranch_getX (s : State) (t b i) : (s.itAfterBranch t b).getX i = s.getX i := by
  unfold State.itAfterBranch; split <;> rfl
@[simp] theorem State.itAfterBranch_pc (s : State) (t b) : (s.itAfterBranch t b).pc = s.pc := by
  unfold State.itAfterBranch; split <;> rfl
@[simp] theorem State.itAfterBranch_t (s : State) (t b) : (s.itAfterBranch t b).t = s.t := by
  unfold State.itAfterBranch; split <;> rfl
@[simp] theorem State.itAfterBranch_flagN (s : State) (t b) : (s.itAfterBranch t b).flagN = s.flagN := by
  unfold State.itAfterBranch; split <;> rfl
@[simp] theorem State.itAfterBranch_flagZ (s : State) (t b) : (s.itAfterBranch t b).flagZ = s.flagZ := by
  unfold State.itAfterBranch; split <;> rfl
@[simp] theorem State.itAfterBranch_flagC (s : State) (t b) : (s.itAfterBranch t b).flagC = s.flagC := by
  unfold State.itAfterBranch; split <;> rfl
@[simp] theorem State.itAfterBranch_flagV (s : State) (t b) : (s.itAfterBranch t b).flagV = s.flagV := by
  unfold State.itAfterBranch; split <;> rfl
@[simp] theorem State.itAfterBranch_dit (s : State) (t b) : (s.itAfterBranch t b).dit = s.dit := by
  unfold State.itAfterBranch; split <;> rfl
@[simp] theorem State.itAfterBranch_mem (s : State) (t b) : (s.itAfterBranch t b).mem = s.mem := by
  unfold State.itAfterBranch; split <;> rfl
@[simp] theorem State.itAfterBranch_params (s : State) (t b) : (s.itAfterBranch t b).params = s.params := by
  unfold State.itAfterBranch; split <;> rfl
@[simp] theorem State.itAfterBranch_draws (s : State) (t b) : (s.itAfterBranch t b).draws = s.draws := by
  unfold State.itAfterBranch; split <;> rfl
theorem State.itAfterBranch_itstate (s : State) (t b) :
    (s.itAfterBranch t b).itstate = if t = .t32 ∧ b = .t32 ∧ s.t = .a32 then 0#8 else s.itstate := by
  unfold State.itAfterBranch; split <;> rfl

/-! `afterInstr`. -/

@[simp] theorem State.afterInstr_a32 (s : State) : s.afterInstr .a32 = s := rfl
@[simp] theorem State.afterInstr_itstate_t32 (s : State) : (s.afterInstr .t32).itstate = itAdvance s.itstate := rfl
@[simp] theorem State.afterInstr_x (s : State) (t) : (s.afterInstr t).x = s.x := by cases t <;> rfl
@[simp] theorem State.afterInstr_getX (s : State) (t i) : (s.afterInstr t).getX i = s.getX i := by cases t <;> rfl
@[simp] theorem State.afterInstr_pc (s : State) (t) : (s.afterInstr t).pc = s.pc := by cases t <;> rfl
@[simp] theorem State.afterInstr_flagN (s : State) (t) : (s.afterInstr t).flagN = s.flagN := by cases t <;> rfl
@[simp] theorem State.afterInstr_flagZ (s : State) (t) : (s.afterInstr t).flagZ = s.flagZ := by cases t <;> rfl
@[simp] theorem State.afterInstr_flagC (s : State) (t) : (s.afterInstr t).flagC = s.flagC := by cases t <;> rfl
@[simp] theorem State.afterInstr_flagV (s : State) (t) : (s.afterInstr t).flagV = s.flagV := by cases t <;> rfl
@[simp] theorem State.afterInstr_t (s : State) (t) : (s.afterInstr t).t = s.t := by cases t <;> rfl
@[simp] theorem State.afterInstr_dit (s : State) (t) : (s.afterInstr t).dit = s.dit := by cases t <;> rfl
@[simp] theorem State.afterInstr_mem (s : State) (t) : (s.afterInstr t).mem = s.mem := by cases t <;> rfl
@[simp] theorem State.afterInstr_params (s : State) (t) : (s.afterInstr t).params = s.params := by cases t <;> rfl
@[simp] theorem State.afterInstr_draws (s : State) (t) : (s.afterInstr t).draws = s.draws := by cases t <;> rfl

/-! The state record is its general registers and the rest. -/

/-- Two states agree on everything but the general registers. -/
def SameButX (s u : State) : Prop := { u with x := s.x } = s

theorem sameButX_refl (s : State) : SameButX s s := rfl

theorem SameButX.trans {s u v : State} (h₁ : SameButX s u) (h₂ : SameButX u v) : SameButX s v := by
  cases s; cases u; cases v; simp_all [SameButX]

theorem sameButX_setX (s : State) (i : Fin 15) (v : Word) : SameButX s (s.setX i v) := rfl

theorem sameButX_commit (loads : List (Fin 15 × Word)) (s : State) : SameButX s (s.commit loads) := by
  induction loads generalizing s with
  | nil => exact sameButX_refl s
  | cons l ls ih => exact (sameButX_setX s l.1 l.2).trans (ih _)

theorem sameButX_writeback (s : State) (n registers wback start unknown) :
    SameButX s (s.writeback n registers wback start unknown) := by
  unfold State.writeback
  split
  · exact sameButX_setX _ _ _
  · exact sameButX_refl s

/-- What two such states share, field by field. -/
theorem SameButX.fields {s u : State} (h : SameButX s u) :
    u.pc = s.pc ∧ u.flagN = s.flagN ∧ u.flagZ = s.flagZ ∧ u.flagC = s.flagC ∧ u.flagV = s.flagV ∧ u.t = s.t ∧
      u.itstate = s.itstate ∧ u.dit = s.dit ∧ u.mem = s.mem ∧ u.params = s.params ∧ u.draws = s.draws := by
  cases s; cases u; simp_all [SameButX]

/-! Registers after a commit. -/

/-- A register that no load names keeps its value. -/
theorem getX_commit_of_not_mem (loads : List (Fin 15 × Word)) (s : State) (j : Fin 15)
    (h : j ∉ loads.map Prod.fst) : (s.commit loads).getX j = s.getX j := by
  induction loads generalizing s with
  | nil => rfl
  | cons l ls ih =>
    simp only [List.map_cons, List.mem_cons, not_or] at h
    exact (ih _ h.2).trans (State.getX_setX_of_ne s l.2 h.1)

/-- Where no register is named twice, a register that a load names ends with that load's word. -/
theorem getX_commit_of_mem (loads : List (Fin 15 × Word)) (s : State) {j : Fin 15} {v : Word}
    (hn : (loads.map Prod.fst).Nodup) (h : (j, v) ∈ loads) : (s.commit loads).getX j = v := by
  induction loads generalizing s with
  | nil => cases h
  | cons l ls ih =>
    simp only [List.map_cons, List.nodup_cons] at hn
    rcases List.mem_cons.1 h with rfl | h
    · exact (getX_commit_of_not_mem ls _ j hn.1).trans (State.getX_setX_self s j v)
    · exact ih _ hn.2 h

/-! The reset state. -/

@[simp] theorem State.reset_mem : State.reset.mem = [] := rfl
@[simp] theorem State.reset_params : State.reset.params = Params.default := rfl
@[simp] theorem State.reset_t : State.reset.t = .a32 := rfl
@[simp] theorem State.reset_pc : State.reset.pc = 0#32 := rfl
@[simp] theorem State.reset_itstate : State.reset.itstate = 0#8 := rfl

end Sys2Proof.Machine
end

