-- ==== Sys2Proof/Laws/Memory.lean ====
section
/-! SUPPORT. The memory image: read after write, and every memory operation keeps the canonical form. -/

namespace Sys2Proof.Machine

@[simp] theorem Memory.read_write_self (m : Memory) (a : Nat) (v : Byte) : (m.write a v).read a = some v := by
  induction m with
  | nil => simp [Memory.write, Memory.read]
  | cons c rest ih =>
    obtain ⟨k, b⟩ := c
    unfold Memory.write
    split
    · simp [Memory.read]
    · split
      · simp [Memory.read]
      · rename_i hne
        simp [Memory.read, Ne.symm hne, ih]

theorem Memory.read_write_of_ne (m : Memory) {a c : Nat} (v : Byte) (h : c ≠ a) :
    (m.write a v).read c = m.read c := by
  induction m with
  | nil => simp [Memory.write, Memory.read, Ne.symm h]
  | cons e rest ih =>
    obtain ⟨k, b⟩ := e
    unfold Memory.write
    split
    · simp [Memory.read, Ne.symm h]
    · split
      · rename_i heq
        subst heq
        simp [Memory.read, Ne.symm h]
      · simp [Memory.read, ih]

/-- Every cell of a written image is the written one or an old one. -/
theorem Memory.mem_write {m : Memory} {a : Nat} {v : Byte} {c : Host.Cell} (h : c ∈ m.write a v) :
    c = (a, v) ∨ c ∈ m := by
  induction m with
  | nil => simpa [Memory.write] using h
  | cons e rest ih =>
    obtain ⟨k, b⟩ := e
    unfold Memory.write at h
    split at h
    · rcases List.mem_cons.1 h with h | h
      · exact .inl h
      · exact .inr h
    · split at h
      · rcases List.mem_cons.1 h with h | h
        · exact .inl h
        · exact .inr (List.mem_cons_of_mem _ h)
      · rcases List.mem_cons.1 h with h | h
        · exact .inr (h ▸ List.mem_cons_self)
        · exact (ih h).imp_right (List.mem_cons_of_mem _)

theorem Memory.wf_write {m : Memory} {a : Nat} (v : Byte) (hm : m.wf) (ha : a < 2 ^ 32) : (m.write a v).wf := by
  refine ⟨?_, fun p hp => ?_⟩
  · replace hm := hm.1
    induction m with
    | nil => simp [Memory.write]
    | cons e rest ih =>
      obtain ⟨k, b⟩ := e
      have hr := List.pairwise_cons.1 hm
      unfold Memory.write
      split
      · rename_i hlt
        exact List.pairwise_cons.2 ⟨fun p hp => by
          rcases List.mem_cons.1 hp with rfl | hp
          · exact hlt
          · exact Nat.lt_trans hlt (hr.1 p hp), hm⟩
      · split
        · rename_i heq
          subst heq
          exact List.pairwise_cons.2 hr
        · refine List.pairwise_cons.2 ⟨fun p hp => ?_, ih hr.2⟩
          rcases Memory.mem_write hp with rfl | hp
          · show k < a
            omega
          · exact hr.1 p hp
  · rcases Memory.mem_write hp with rfl | hp
    · exact ha
    · exact hm.2 p hp

theorem Memory.wf_writeBytes (vs : List Byte) {m : Memory} {a : Nat} (hm : m.wf) (ha : a + vs.length ≤ 2 ^ 32) :
    (m.writeBytes a vs).wf := by
  induction vs generalizing m a with
  | nil => exact hm
  | cons v vs ih =>
    simp only [List.length_cons] at ha
    exact ih (Memory.wf_write v hm (by omega)) (by omega)

/-- The reset image is in canonical form. -/
theorem Memory.wf_reset : State.reset.mem.wf := by decide

end Sys2Proof.Machine
end

