-- ==== Sys2Proof/Laws/Ops.lean ====
section
/-! SUPPORT. One lemma for each shared operation of Machine/Ops.lean and Machine/Flags.lean that says what it can
answer. -/

namespace Sys2Proof.Machine

/-! Reads. -/

/-- A read faults only with a data abort at its own address (R44). -/
theorem memRead_error {s : State} {a : Word} {f : Fault} (h : s.memRead a = .error f) :
    ∃ kind, f = .dataAbort kind a := by
  unfold State.memRead at h
  split at h
  · split at h
    · cases h
      exact ⟨_, rfl⟩
    · cases h
  · cases h
    exact ⟨_, rfl⟩

/-- A read looks at the memory image and the launch arguments only. -/
theorem memRead_congr {s u : State} (hm : u.mem = s.mem) (hp : u.params = s.params) (a : Word) :
    u.memRead a = s.memRead a := by
  have hb : ∀ k, u.loadByte k = s.loadByte k := fun k => by
    simp only [State.loadByte, State.regionRefusal, hm, hp]
  simp only [State.memRead, State.loadBytes4, hb, hp]

/-! The program counter. -/

/-- The advance, where it answers (R25). -/
theorem nextPc_ok {s : State} {p : Word × ISet} (h : s.nextPc = .ok p) :
    s.pc.toNat < 0xFFFFFFFC ∧ p = (s.pc + 4#32, s.t) := by
  unfold State.nextPc at h
  split at h
  · cases h
    exact ⟨‹_›, rfl⟩
  · cases h

theorem nextPc_of_lt {s : State} (h : s.pc.toNat < 0xFFFFFFFC) : s.nextPc = .ok (s.pc + 4#32, s.t) := if_pos h

/-- The whole effect of a skipped instruction or a NOP (R90). -/
theorem advance_ok {s t : State} (h : s.advance = .ok t) :
    s.pc.toNat < 0xFFFFFFFC ∧ t = { s with pc := s.pc + 4#32 } := by
  unfold State.advance at h
  cases hp : s.nextPc with
  | error f => rw [hp] at h; cases h
  | ok p =>
    rw [hp] at h
    cases h
    obtain ⟨hlt, rfl⟩ := nextPc_ok hp
    exact ⟨hlt, rfl⟩

theorem advance_of_lt {s : State} (h : s.pc.toNat < 0xFFFFFFFC) : s.advance = .ok { s with pc := s.pc + 4#32 } := by
  rw [State.advance, nextPc_of_lt h]
  rfl

/-- `pc` is aligned exactly if it is a multiple of the instruction set's unit (R26). -/
theorem pcAligned_iff (t : ISet) (pc : Word) :
    pcAligned t pc = true ↔ match t with | .a32 => pc.toNat % 4 = 0 | .t32 => pc.toNat % 2 = 0 := by
  cases t <;> simp [pcAligned, ← BitVec.toNat_inj]

/-- The advance keeps the alignment that `T` requires. -/
theorem pcAligned_add_four {t : ISet} {pc : Word} (h : pcAligned t pc = true) :
    pcAligned t (pc + 4#32) = true := by
  rw [pcAligned_iff] at h ⊢
  cases t <;> simp only [BitVec.toNat_add, BitVec.toNat_ofNat] at h ⊢ <;> omega

/-- An interworking branch answers an aligned target, unless A32_FORCE_ALIGN_PC is `some false` (R89). -/
theorem branchTarget_aligned {fa : Option Bool} {v : Word} {p : Word × ISet} (h : branchTarget fa v = .ok p)
    (hfa : fa ≠ some false) : pcAligned p.2 p.1 = true := by
  unfold branchTarget at h
  split at h
  · cases h
    rw [pcAligned_iff]
    have h := BitVec.toNat_append (v.extractLsb' 1 31) 0#1
    simp only [BitVec.toNat_ofNat, Nat.zero_mod, Nat.or_zero, Nat.shiftLeft_eq] at h
    exact (congrArg (· % 2) h).trans (Nat.mul_mod_left _ _)
  · rename_i h0
    split at h
    · split at h
      · cases h
      · cases h
        rw [pcAligned_iff]
        have h := BitVec.toNat_append (v.extractLsb' 2 30) 0#2
        simp only [BitVec.toNat_ofNat, Nat.zero_mod, Nat.or_zero, Nat.shiftLeft_eq] at h
        exact (congrArg (· % 4) h).trans (Nat.mul_mod_left _ _)
      · exact absurd rfl hfa
    · rename_i h1
      cases h
      simp only [pcAligned, beq_iff_eq]
      apply BitVec.eq_of_getLsbD_eq
      intro i hi
      have : i = 0 ∨ i = 1 := by omega
      rcases this with rfl | rfl
      · simpa using h0
      · simpa using h1

/-! The IT state. -/

/-- Outside an IT block, and at its last instruction, the advance leaves zero (R31). -/
theorem itAdvance_of_not_mid {it : BitVec 8}
    (h : it.extractLsb' 0 4 = 0b0000#4 ∨ it.extractLsb' 0 4 = 0b1000#4) : itAdvance it = 0#8 := by
  have : it.extractLsb' 0 3 = 0b000#3 := by
    have hs : it.extractLsb' 0 3 = (it.extractLsb' 0 4).extractLsb' 0 3 := by
      apply BitVec.eq_of_getLsbD_eq
      intro i hi
      simp [hi]
    rw [hs]
    rcases h with h | h <;> rw [h] <;> decide
  exact if_pos this

theorem itAdvance_zero : itAdvance 0#8 = 0#8 := by decide

end Sys2Proof.Machine
end

