-- ==== Sys2Proof/Laws/LoadMultiple.lean ====
section
/-! SUPPORT. What listing L84 does, said once: the loop, the operation, the behaviours CU_POLICY admits, and what any
next state of an instruction shares with the state before. -/

namespace Sys2Proof.Machine

/-! Register lists. -/

/-- The listed registers among R0 to R14, in the order of the loop. -/
def listedRegs (registers : BitVec 16) : List (Fin 15) := loopRegs.filter (fun i => registers.getLsbD i.val)

theorem mem_loopRegs (i : Fin 15) : i ∈ loopRegs := by revert i; decide

theorem loopRegs_nodup : loopRegs.Nodup := by decide

theorem listedRegs_nodup (registers : BitVec 16) : (listedRegs registers).Nodup := loopRegs_nodup.filter _

theorem mem_listedRegs {registers : BitVec 16} {i : Fin 15} :
    i ∈ listedRegs registers ↔ registers.getLsbD i.val = true := by
  simp [listedRegs, mem_loopRegs]

theorem listedBelow_succ (registers : BitVec 16) (i : Nat) :
    listedBelow registers (i + 1) = listedBelow registers i + if registers.getLsbD i = true then 1 else 0 := by
  simp [listedBelow, List.range_succ, List.countP_append, List.countP_cons]

theorem listedBelow_mono (registers : BitVec 16) {i j : Nat} (h : i ≤ j) :
    listedBelow registers i ≤ listedBelow registers j := by
  induction h with
  | refl => exact Nat.le_refl _
  | step _ ih =>
    rw [Nat.succ_eq_add_one, listedBelow_succ]
    omega

/-- `k` counts the listed registers below the PC, and the PC. -/
theorem bitCount_eq (registers : BitVec 16) :
    bitCount registers = listedBelow registers 15 + if registers.getLsbD 15 = true then 1 else 0 :=
  listedBelow_succ registers 15

theorem bitCount_le (registers : BitVec 16) : bitCount registers ≤ 16 := by
  simpa [bitCount, listedBelow] using List.countP_le_length (p := fun j => registers.getLsbD j) (l := List.range 16)

theorem length_listedRegs (registers : BitVec 16) : (listedRegs registers).length = listedBelow registers 15 := by
  have h : loopRegs.map Fin.val = List.range 15 := by decide
  simp [listedRegs, listedBelow, ← List.countP_eq_length_filter, ← h, List.countP_map, Function.comp_def]

theorem loopRegs_split (i : Fin 15) : loopRegs = loopRegs.take i.val ++ i :: loopRegs.drop (i.val + 1) := by
  revert i; decide

theorem loopRegs_take (i : Fin 15) : (loopRegs.take i.val).map Fin.val = List.range i.val := by revert i; decide

/-- The j-th listed register is the one with j listed registers below it. -/
theorem getElem_listedRegs {registers : BitVec 16} {i : Fin 15} (h : registers.getLsbD i.val = true) :
    (listedRegs registers)[listedBelow registers i.val]? = some i := by
  have hlen : ((loopRegs.take i.val).filter (fun j => registers.getLsbD j.val)).length
      = listedBelow registers i.val := by
    rw [listedBelow, ← List.countP_eq_length_filter, ← loopRegs_take i, List.countP_map]
    rfl
  rw [listedRegs, loopRegs_split i, List.filter_append, List.filter_cons_of_pos (by exact h),
    List.getElem?_append_right (Nat.le_of_eq hlen), hlen, Nat.sub_self]
  rfl

/-! The loop (R86). -/

theorem offset_succ (a : Word) (k : Nat) :
    a + 4#32 + BitVec.ofNat 32 (4 * k) = a + BitVec.ofNat 32 (4 * (k + 1)) := by
  rw [BitVec.add_assoc, ← BitVec.ofNat_add]
  congr 2
  omega

/-- Where the loop answers, it loaded the listed registers in order, from rising addresses 4 apart. -/
theorem loadListed_ok {s : State} {registers : BitVec 16} {is : List (Fin 15)} {a b : Word}
    {loads : List (Fin 15 × Word)} (h : s.loadListed registers is a = .ok (loads, b)) :
    loads.map Prod.fst = is.filter (fun i => registers.getLsbD i.val) ∧
      b = a + BitVec.ofNat 32 (4 * loads.length) ∧
      ∀ k l, loads[k]? = some l → s.memRead (a + BitVec.ofNat 32 (4 * k)) = .ok l.2 := by
  induction is generalizing a b loads with
  | nil =>
    cases h
    exact ⟨rfl, by simp, fun k l hl => by simp at hl⟩
  | cons i is ih =>
    unfold State.loadListed at h
    split at h
    · rename_i hi
      cases hv : s.memRead a with
      | error f => rw [hv] at h; cases h
      | ok v =>
        rw [hv] at h
        cases hr : s.loadListed registers is (a + 4#32) with
        | error f => simp only [hr] at h; cases h
        | ok r =>
          obtain ⟨rest, c⟩ := r
          simp only [hr] at h
          cases h
          obtain ⟨h1, h2, h3⟩ := ih hr
          refine ⟨by simp [h1, hi], by rw [h2, offset_succ]; rfl, fun k l hl => ?_⟩
          cases k with
          | zero =>
            simp only [List.getElem?_cons_zero, Option.some.injEq] at hl
            subst hl
            simpa using hv
          | succ k =>
            rw [← offset_succ]
            exact h3 k l (by simpa using hl)
    · rename_i hi
      obtain ⟨h1, h2, h3⟩ := ih h
      exact ⟨by simp [h1, hi], h2, h3⟩

/-- Where every word can be read, the loop answers. -/
theorem loadListed_of_reads {s : State} {registers : BitVec 16} (is : List (Fin 15)) (a : Word)
    (h : ∀ k, k < (is.filter (fun i => registers.getLsbD i.val)).length →
      ∃ v, s.memRead (a + BitVec.ofNat 32 (4 * k)) = .ok v) :
    ∃ r, s.loadListed registers is a = .ok r := by
  induction is generalizing a with
  | nil => exact ⟨_, rfl⟩
  | cons i is ih =>
    unfold State.loadListed
    split
    · rename_i hi
      simp only [List.filter_cons, hi, if_true, List.length_cons] at h
      obtain ⟨v, hv⟩ := h 0 (by omega)
      obtain ⟨r, hr⟩ := ih (a + 4#32) fun k hk => by
        rw [offset_succ]
        exact h (k + 1) (by omega)
      simp only [Nat.mul_zero, BitVec.add_zero] at hv
      exact ⟨((i, v) :: r.1, r.2), by rw [hv]; simp only [hr]; rfl⟩
    · rename_i hi
      simp only [List.filter_cons, hi] at h
      exact ih a h

/-- Where a word cannot be read, the loop answers the fault of the first such word (R111). -/
theorem loadListed_of_first_fault {s : State} {registers : BitVec 16} {f : Fault} (is : List (Fin 15)) (a : Word)
    (j : Nat) (hj : j < (is.filter (fun i => registers.getLsbD i.val)).length)
    (hlow : ∀ k, k < j → ∃ v, s.memRead (a + BitVec.ofNat 32 (4 * k)) = .ok v)
    (hf : s.memRead (a + BitVec.ofNat 32 (4 * j)) = .error f) :
    s.loadListed registers is a = .error f := by
  induction is generalizing a j with
  | nil => simp at hj
  | cons i is ih =>
    unfold State.loadListed
    split
    · rename_i hi
      simp only [List.filter_cons, hi, if_true, List.length_cons] at hj
      cases j with
      | zero =>
        simp only [Nat.mul_zero, BitVec.add_zero] at hf
        rw [hf]
        rfl
      | succ j =>
        obtain ⟨v, hv⟩ := hlow 0 (by omega)
        simp only [Nat.mul_zero, BitVec.add_zero] at hv
        have := ih (a + 4#32) j (by omega)
          (fun k hk => by rw [offset_succ]; exact hlow (k + 1) (by omega)) (by rw [offset_succ]; exact hf)
        rw [hv]
        simp only [this]
        rfl
    · rename_i hi
      simp only [List.filter_cons, hi] at hj
      exact ih a j hj hlow hf

/-! The operation (R84). -/

/-- Where listing L84 answers, this is what it did: the range passed its checks, the loop read the listed registers'
words at their addresses, the new PC was found, and the commit wrote these and nothing else. -/
theorem loadMultiple_ok {s t : State} {n : Fin 15} {registers : BitVec 16} {wback : Bool} {u : Word}
    (h : s.loadMultiple n registers wback u = .ok t) :
    ∃ loads target, loads.map Prod.fst = listedRegs registers ∧
      (∀ j v, (j, v) ∈ loads → s.memRead (wordAddress s n registers j.val) = .ok v) ∧
      s.pcAfter registers (wordAddress s n registers 15) = .ok target ∧
      checkRange (s.getX n) registers = .ok () ∧
      t = ((s.commit loads).writeback n registers wback (startAddress (s.getX n) registers) u).setPc target := by
  unfold State.loadMultiple at h
  cases hc : checkRange (s.getX n) registers with
  | error f => simp only [hc] at h; cases h
  | ok _ =>
    cases hl : s.loadListed registers loopRegs (startAddress (s.getX n) registers) with
    | error f => simp only [hc, hl] at h; cases h
    | ok r =>
      obtain ⟨loads, a⟩ := r
      obtain ⟨h1, h2, h3⟩ := loadListed_ok hl
      have hlen : loads.length = listedBelow registers 15 := by
        rw [← length_listedRegs, ← List.length_map (f := Prod.fst), h1, listedRegs]
      have ha : a = wordAddress s n registers 15 := by rw [h2, hlen, wordAddress]
      subst ha
      cases hp : s.pcAfter registers (wordAddress s n registers 15) with
      | error f => simp only [hc, hl] at h; simp only [bind, Except.bind, hp] at h; cases h
      | ok target =>
        simp only [hc, hl] at h
        simp only [bind, Except.bind, hp, pure, Except.pure] at h
        refine ⟨loads, target, h1, fun j v hjv => ?_, rfl, rfl, (Except.ok.inj h).symm⟩
        obtain ⟨k, hk⟩ := List.mem_iff_getElem?.1 hjv
        have hj : (listedRegs registers)[k]? = some j := by rw [listedRegs, ← h1, List.getElem?_map, hk]; rfl
        have hb : registers.getLsbD j.val = true := mem_listedRegs.1 (List.mem_of_getElem? hj)
        have hkj : k = listedBelow registers j.val := by
          have hlt : k < (listedRegs registers).length := (List.getElem?_eq_some_iff.1 hj).1
          exact (List.getElem?_inj hlt (listedRegs_nodup registers)).1 (hj.trans (getElem_listedRegs hb).symm)
        subst hkj
        exact h3 _ _ hk

/-- The registers after listing L84: a listed register that writeback does not write has its word; a register neither
listed nor written back is unchanged; the written-back base has the start address, or UNKNOWN if it is listed. -/
theorem loadMultiple_getX {s t : State} {n : Fin 15} {registers : BitVec 16} {wback : Bool} {u : Word}
    (h : s.loadMultiple n registers wback u = .ok t) (j : Fin 15) :
    if wback = true ∧ j = n then
      t.getX j = if registers.getLsbD n.val = true then u else startAddress (s.getX n) registers
    else if registers.getLsbD j.val = true then
      s.memRead (wordAddress s n registers j.val) = .ok (t.getX j)
    else t.getX j = s.getX j := by
  obtain ⟨loads, target, h1, h2, -, -, rfl⟩ := loadMultiple_ok h
  have key : if registers.getLsbD j.val = true then
      s.memRead (wordAddress s n registers j.val) = .ok ((s.commit loads).getX j)
      else (s.commit loads).getX j = s.getX j := by
    split
    · rename_i hb
      have : j ∈ loads.map Prod.fst := by rw [h1]; exact mem_listedRegs.2 hb
      obtain ⟨⟨j', v⟩, hm, rfl⟩ := List.mem_map.1 this
      rw [getX_commit_of_mem loads s (by rw [h1]; exact listedRegs_nodup _) hm]
      exact h2 _ _ hm
    · rename_i hb
      exact getX_commit_of_not_mem loads s j (by rw [h1]; exact fun hm => hb (mem_listedRegs.1 hm))
  rw [State.setPc_getX]
  cases wback with
  | false => simpa [State.writeback] using key
  | true =>
    by_cases hj : j = n
    · subst hj
      simp [State.writeback]
    · simpa [State.writeback, hj, State.getX_setX_of_ne _ _ hj] using key

/-- Everything but the general registers, the PC and `T` is as before listing L84. -/
theorem loadMultiple_sameButX {s t : State} {n : Fin 15} {registers : BitVec 16} {wback : Bool} {u : Word}
    (h : s.loadMultiple n registers wback u = .ok t) :
    ∃ v target, SameButX s v ∧ t = v.setPc target ∧
      s.pcAfter registers (wordAddress s n registers 15) = .ok target := by
  obtain ⟨loads, target, -, -, hp, -, rfl⟩ := loadMultiple_ok h
  exact ⟨_, target, (sameButX_commit loads s).trans (sameButX_writeback _ _ _ _ _ _), rfl, hp⟩

/-- Where the words can be read and the new PC exists, listing L84 answers. -/
theorem loadMultiple_of_ready {s : State} {n : Fin 15} {registers : BitVec 16} {target : Word × ISet}
    (hc : checkRange (s.getX n) registers = .ok ())
    (hr : ∀ k, k < listedBelow registers 15 →
      ∃ v, s.memRead (startAddress (s.getX n) registers + BitVec.ofNat 32 (4 * k)) = .ok v)
    (hp : s.pcAfter registers (wordAddress s n registers 15) = .ok target) (wback : Bool) (u : Word) :
    ∃ t, s.loadMultiple n registers wback u = .ok t := by
  obtain ⟨r, hl⟩ := loadListed_of_reads (registers := registers) loopRegs (startAddress (s.getX n) registers)
    fun k hk => hr k (by rw [← length_listedRegs]; exact hk)
  obtain ⟨loads, a⟩ := r
  obtain ⟨h1, h2, -⟩ := loadListed_ok hl
  have hlen : loads.length = listedBelow registers 15 := by
    rw [← length_listedRegs, ← List.length_map (f := Prod.fst), h1, listedRegs]
  have ha : a = wordAddress s n registers 15 := by rw [h2, hlen, wordAddress]
  subst ha
  exact ⟨((s.commit loads).writeback n registers wback (startAddress (s.getX n) registers) u).setPc target, by
    unfold State.loadMultiple
    simp only [hc, hl, bind, Except.bind, hp, pure, Except.pure]⟩

/-- The range checks, by what they ask of the base (R43, R46). The words lie at distances that are multiples of 4, so
one alignment check is enough. -/
theorem wordAligned_startAddress (base : Word) (registers : BitVec 16) :
    wordAligned (startAddress base registers) = wordAligned base := by
  have h : ∀ a : Word, wordAligned a = decide (a.toNat % 4 = 0) := fun a => by
    rw [Bool.eq_iff_iff]
    simp [wordAligned, ← BitVec.toNat_inj]
  have hk := bitCount_le registers
  rw [h, h, startAddress, BitVec.toNat_sub, BitVec.toNat_ofNat]
  congr 1
  have := base.isLt
  apply propext
  constructor <;> intro <;> omega

theorem checkRange_of_ready {base : Word} {registers : BitVec 16} (ha : wordAligned base = true)
    (hw : wraps base registers = false) : checkRange base registers = .ok () := by
  unfold checkRange
  rw [wordAligned_startAddress, ha, if_pos rfl, if_neg]
  intro h
  simp [wraps, h.1, h.2] at hw

/-! The PC after the operation. -/

/-- The PC's word lies just below the base (R88). -/
theorem wordAddress_pc {s : State} {n : Fin 15} {registers : BitVec 16} (h : registers.getLsbD 15 = true) :
    wordAddress s n registers 15 = s.getX n - 4#32 := by
  have hk := bitCount_eq registers
  rw [if_pos h] at hk
  have hle := bitCount_le registers
  apply BitVec.eq_of_toNat_eq
  rw [wordAddress, startAddress, hk]
  have := (s.getX n).isLt
  simp only [BitVec.toNat_add, BitVec.toNat_sub, BitVec.toNat_ofNat]
  omega

/-- The new PC is that of a loaded word's branch or of the advance (R25, R88, R89). -/
theorem pcAfter_ok {s : State} {registers : BitVec 16} {a : Word} {target : Word × ISet}
    (h : s.pcAfter registers a = .ok target) :
    if registers.getLsbD 15 = true then
      ∃ v, s.memRead a = .ok v ∧ branchTarget s.params.forceAlignPc v = .ok target
    else s.nextPc = .ok target := by
  unfold State.pcAfter at h
  split at h
  · rename_i hb
    rw [if_pos hb]
    cases hv : s.memRead a with
    | error f => rw [hv] at h; cases h
    | ok v => rw [hv] at h; exact ⟨v, rfl, h⟩
  · rename_i hb
    rwa [if_neg hb]

/-! Every instruction. -/

/-- Every arm of exec is the shared execution of what the instruction decodes to (R80). -/
theorem exec_eq (i : Instr) (s : State) : exec i s = execDecoded (decodedOf i s) s := by
  cases i <;> rfl

/-- The instruction set of what an instruction decodes to is its own. -/
@[simp] theorem decodedOf_iset (i : Instr) (s : State) : (decodedOf i s).iset = i.iset := by cases i <;> rfl

theorem finish_next {t : ISet} {r : Except Fault State} {v : State} (h : finish t r = .next v) :
    ∃ u, r = .ok u ∧ v = u.afterInstr t := by
  cases r with
  | error f => cases h
  | ok u => cases h; exact ⟨u, rfl, rfl⟩

/-- What a next state of an instruction comes from: a defined execution, or a behaviour admitted for its one
UNPREDICTABLE case. -/
theorem exec_next {i : Instr} {s t : State} (h : exec i s = .next t) :
    ∃ n u, baseReg (decodedOf i s).rn = some n ∧ t = u.afterInstr i.iset ∧
      (((decodedOf i s).cases = [] ∧ s.execDefined (decodedOf i s) n = .ok u) ∨
        ∃ c, (decodedOf i s).cases = [c] ∧ s.execCase (decodedOf i s) n c = .ok u) := by
  rw [exec_eq] at h
  unfold execDecoded at h
  split at h
  · rename_i n hn hc
    obtain ⟨u, hu, rfl⟩ := finish_next h
    exact ⟨n, u, hn, by simp, .inl ⟨hc, hu⟩⟩
  · rename_i n c hn hc
    obtain ⟨u, hu, rfl⟩ := finish_next h
    exact ⟨n, u, hn, by simp, .inr ⟨c, hc, hu⟩⟩
  · cases h
  · cases h

/-- Two states agree on everything but the general registers, the PC, `T`, `ITSTATE` and the count of draws. -/
def SameMachine (s u : State) : Prop :=
  { u with x := s.x, pc := s.pc, t := s.t, itstate := s.itstate, draws := s.draws } = s

theorem SameMachine.fields {s u : State} (h : SameMachine s u) :
    u.flagN = s.flagN ∧ u.flagZ = s.flagZ ∧ u.flagC = s.flagC ∧ u.flagV = s.flagV ∧ u.dit = s.dit ∧
      u.mem = s.mem ∧ u.params = s.params := by
  cases s; cases u; simp_all [SameMachine]

theorem SameButX.sameMachine_setPc {s v : State} (h : SameButX s v) (target : Word × ISet) :
    SameMachine s (v.setPc target) := by
  cases s; cases v; simp_all [SameButX, SameMachine, State.setPc]

theorem SameMachine.itAfterBranch {s u : State} (h : SameMachine s u) (t b : ISet) :
    SameMachine s (u.itAfterBranch t b) := by
  unfold State.itAfterBranch
  split
  · cases s; cases u; simp_all [SameMachine]
  · exact h

/-- Where the new PC of an execution comes from: the advance, or the branch of a loaded word. -/
def PcFrom (s u : State) : Prop :=
  s.nextPc = .ok (u.pc, u.t) ∨
    ∃ a v, s.memRead a = .ok v ∧ branchTarget s.params.forceAlignPc v = .ok (u.pc, u.t)

theorem pcFrom_of_pcAfter {s : State} {registers : BitVec 16} {a : Word} {target : Word × ISet} (v : State)
    (h : s.pcAfter registers a = .ok target) : PcFrom s (v.setPc target) := by
  have := pcAfter_ok h
  split at this
  · obtain ⟨w, hw, hb⟩ := this
    exact .inr ⟨a, w, hw, hb⟩
  · exact .inl this

/-- Without the PC in the list, `T` stays. -/
theorem t_of_pcAfter {s : State} {registers : BitVec 16} {a : Word} {target : Word × ISet}
    (h : s.pcAfter registers a = .ok target) (hb : registers.getLsbD 15 = false) : target.2 = s.t := by
  have := pcAfter_ok h
  rw [if_neg (by rw [hb]; decide)] at this
  obtain ⟨-, rfl⟩ := nextPc_ok this
  rfl

/-- What an execution leaves, where its PC comes from, and its `ITSTATE` before the advance: the old one, or zero where
a T32 instruction goes from T32 to A32; and an instruction that goes from T32 to A32 in the middle of an IT block has it zero. -/
structure Leaves (d : Decoded) (s u : State) : Prop where
  same : SameMachine s u
  pc : PcFrom s u
  itstate : u.itstate = s.itstate ∨ d.iset = .t32 ∧ s.t = .t32 ∧ u.t = .a32 ∧ u.itstate = 0#8
  toA32 : d.iset = .t32 → s.t = .t32 → u.t = .a32 → u.itstate = 0#8 ∨ s.midITBlock = false

/-- A later write of a general register changes none of this. -/
theorem Leaves.setX {d : Decoded} {s u : State} (h : Leaves d s u) (i : Fin 15) (v : Word) :
    Leaves d s (u.setX i v) where
  same := by
    have := h.same
    cases s; cases u; simp_all [SameMachine, State.setX]
  pc := h.pc
  itstate := h.itstate
  toA32 := h.toA32

theorem Leaves.drawn {d : Decoded} {s u : State} (h : Leaves d s u) : Leaves d s u.drawn where
  same := by
    have := h.same
    cases s; cases u; simp_all [SameMachine, State.drawn]
  pc := h.pc
  itstate := h.itstate
  toA32 := h.toA32

theorem leaves_advance {d : Decoded} {s u : State} (h : s.advance = .ok u) : Leaves d s u := by
  obtain ⟨hlt, rfl⟩ := advance_ok h
  exact
    { same := rfl
      pc := .inl (nextPc_of_lt hlt)
      itstate := .inl rfl
      toA32 := fun _ hs hu => by cases hs.symm.trans hu }

/-- A commit that ends in a new PC leaves this, if its PC is loaded by a T32 instruction only outside the middle of an
IT block. -/
theorem leaves_of_pcAfter {d : Decoded} {s v : State} {registers : BitVec 16} {a : Word} {target : Word × ISet}
    (hv : SameButX s v) (hp : s.pcAfter registers a = .ok target)
    (hit : d.iset = .t32 → registers.getLsbD 15 = true → s.midITBlock = false) : Leaves d s (v.setPc target) where
  same := hv.sameMachine_setPc target
  pc := pcFrom_of_pcAfter v hp
  itstate := .inl hv.fields.2.2.2.2.2.2.1
  toA32 hd hs hu := by
    cases hb : registers.getLsbD 15 with
    | true => exact .inr (hit hd hb)
    | false =>
      rw [State.setPc_t, t_of_pcAfter hp hb, hs] at hu
      cases hu

theorem leaves_loadMultiple {d : Decoded} {s t : State} {n : Fin 15} {registers : BitVec 16} {wback : Bool}
    {u : Word} (h : s.loadMultiple n registers wback u = .ok t)
    (hit : d.iset = .t32 → registers.getLsbD 15 = true → s.midITBlock = false) : Leaves d s t := by
  obtain ⟨v, target, hv, rfl, hp⟩ := loadMultiple_sameButX h
  exact leaves_of_pcAfter hv hp hit

/-- Where listing L84 answers for an unspecified set, it is that of the set, with the IT state of a branch. -/
theorem loadSet_ok {d : Decoded} {s t : State} {n : Fin 15} {set : BitVec 16} {wback : Bool} {u : Word}
    (h : s.loadSet d n set wback u = .ok t) :
    ∃ v, s.loadMultiple n set wback u = .ok v ∧ t = v.itAfterBranch d.iset s.t := by
  unfold State.loadSet at h
  cases hl : s.loadMultiple n set wback u with
  | error f => rw [hl] at h; cases h
  | ok v => rw [hl] at h; cases h; exact ⟨v, rfl, rfl⟩

theorem leaves_loadSet {d : Decoded} {s t : State} {n : Fin 15} {set : BitVec 16} {wback : Bool} {u : Word}
    (h : s.loadSet d n set wback u = .ok t) : Leaves d s t := by
  obtain ⟨w, hw, rfl⟩ := loadSet_ok h
  obtain ⟨v, target, hv, rfl, hp⟩ := loadMultiple_sameButX hw
  have hi := State.itAfterBranch_itstate (v.setPc target) d.iset s.t
  exact
    { same := (hv.sameMachine_setPc target).itAfterBranch _ _
      pc := by simpa [PcFrom] using pcFrom_of_pcAfter v hp
      itstate := by
        rw [hi, State.itAfterBranch_t]
        split
        · rename_i hc
          exact .inr ⟨hc.1, hc.2.1, hc.2.2, rfl⟩
        · exact .inl hv.fields.2.2.2.2.2.2.1
      toA32 := fun hd hs hu => by
        rw [State.itAfterBranch_t] at hu
        exact .inl (hi.trans (if_pos ⟨hd, hs, hu⟩)) }

/-- A T1 list with the PC in it, whose only case is not R97's, is not in the middle of an IT block. -/
theorem midITBlock_of_cases {i : Instr} {s : State} (ht : i.iset = .t32)
    (hpc : (decodedOf i s).registers.getLsbD 15 = true)
    (hc : UnpredCase.pcLoadInsideITBlock ∉ (decodedOf i s).cases) : s.midITBlock = false := by
  by_contra hm
  apply hc
  have hm' : s.midITBlock = true := by simpa using hm
  cases i with
  | ldmdbA1 => cases ht
  | ldmeaA1 => cases ht
  | ldmdbT1 w rn p m l =>
    simp only [decodedOf, decodedT1] at hpc ⊢
    simp [casesT1, hpc, hm']
  | ldmeaT1 w rn p m l =>
    simp only [decodedOf, decodedT1] at hpc ⊢
    simp [casesT1, hpc, hm']

/-- The case LRandPC_T1 is of T1 lists with the PC in them. -/
theorem pc_listed_of_lrAndPc {i : Instr} {s : State} (hc : UnpredCase.lrAndPcT1 ∈ (decodedOf i s).cases) :
    i.iset = .t32 ∧ (decodedOf i s).registers.getLsbD 15 = true := by
  cases i with
  | ldmdbA1 cond w rn l => simp [decodedOf, decodedA1, casesA1] at hc
  | ldmeaA1 cond w rn l => simp [decodedOf, decodedA1, casesA1] at hc
  | ldmdbT1 w rn p m l =>
    refine ⟨rfl, ?_⟩
    simp only [decodedOf, decodedT1] at hc ⊢
    simp [casesT1] at hc
    simpa using hc.1
  | ldmeaT1 w rn p m l =>
    refine ⟨rfl, ?_⟩
    simp only [decodedOf, decodedT1] at hc ⊢
    simp [casesT1] at hc
    simpa using hc.1

theorem leaves_perform {i : Instr} {s t : State} {n : Fin 15} {b : Behaviour} {c : UnpredCase}
    (h : s.perform (decodedOf i s) n b = .ok t) (hc : (decodedOf i s).cases = [c]) (hb : b ∈ permitted c) :
    Leaves (decodedOf i s) s t := by
  have hit : (decodedOf i s).iset = .t32 → (decodedOf i s).registers.getLsbD 15 = true → s.midITBlock = false :=
    fun ht hpc => midITBlock_of_cases (by simpa using ht) hpc (by
      rw [hc, List.mem_singleton]
      rintro rfl
      cases hb)
  cases b with
  | undef => cases h
  | nop => exact leaves_advance h
  | singleRegister => exact leaves_loadMultiple h hit
  | baseUnknown => exact leaves_loadMultiple h hit
  | r13Unknown =>
    simp only [State.perform] at h
    cases hl : s.loadMultiple n (decodedOf i s).registers (decodedOf i s).wback (Config.unknownWord s.draws) with
    | error f => rw [hl] at h; cases h
    | ok u =>
      rw [hl] at h
      cases h
      exact (leaves_loadMultiple hl hit).setX _ _
  | unspecifiedSet => exact leaves_loadSet h
  | unspecifiedSetAndBase =>
    simp only [State.perform, State.loadSetAndBase] at h
    cases hl : s.loadSet (decodedOf i s) n (Config.unspecifiedSet s.draws) false 0#32 with
    | error f => rw [hl] at h; cases h
    | ok u =>
      rw [hl] at h
      cases h
      split
      · exact (leaves_loadSet hl).setX _ _
      · exact leaves_loadSet hl
  | lrAndPcDrawn =>
    have hlr : c = .lrAndPcT1 := by
      cases c <;> simp [permitted] at hb ⊢
    have hpc := (pc_listed_of_lrAndPc (i := i) (s := s) (by rw [hc, hlr]; exact List.mem_singleton_self _)).2
    simp only [State.perform, State.loadLrAndPc] at h
    generalize lrAndPcSet (decodedOf i s).registers (Config.loadsLr s.draws) (Config.loadsPc s.draws) = set at h
    cases hl : s.loadDrawn set (Config.loadAddress s.draws) loopRegs with
    | error f => rw [hl] at h; cases h
    | ok loads =>
      cases hp : s.pcAfter set (Config.loadAddress s.draws 15) with
      | error f => simp only [bind, Except.bind, hl, hp] at h; cases h
      | ok target =>
        simp only [bind, Except.bind, hl, hp] at h
        cases h
        exact leaves_of_pcAfter ((sameButX_commit loads s).trans (sameButX_writeback _ _ _ _ _ _)) hp
          fun ht _ => hit ht hpc

/-- What every instruction leaves in a next state, whatever the launch arguments: the state before its `ITSTATE` is
advanced differs from the old one only as `Leaves` says. -/
theorem exec_leaves {i : Instr} {s t : State} (h : exec i s = .next t) :
    ∃ u, t = u.afterInstr i.iset ∧ Leaves (decodedOf i s) s u := by
  obtain ⟨n, u, -, rfl, hu⟩ := exec_next h
  refine ⟨u, rfl, ?_⟩
  rcases hu with ⟨hc, hu⟩ | ⟨c, hc, hu⟩
  · unfold State.execDefined at hu
    split at hu
    · exact leaves_loadMultiple hu fun ht hpc => midITBlock_of_cases (by simpa using ht) hpc (by simp [hc])
    · exact leaves_advance hu
  · unfold State.execCase at hu
    split at hu
    · cases hu
    · cases hu
    · rename_i b hne hb
      have hmem : b ∈ permitted c := by
        unfold State.chosen at hb
        split at hb
        · cases hb
        · exact List.mem_of_getElem? hb
      split at hu
      · cases hp : s.perform (decodedOf i s) n b with
        | error f => rw [hp] at hu; cases hu
        | ok v =>
          rw [hp] at hu
          cases hu
          exact (leaves_perform hp hc hmem).drawn
      · cases hp : s.advance with
        | error f => rw [hp] at hu; cases hu
        | ok v =>
          rw [hp] at hu
          cases hu
          exact (leaves_advance hp).drawn

/-- An instruction without an UNPREDICTABLE case leaves `ITSTATE` to the advance. -/
theorem exec_defined_itstate {i : Instr} {s t : State} (h : exec i s = .next t) (hc : (decodedOf i s).cases = []) :
    t.itstate = (s.afterInstr i.iset).itstate := by
  have key : ∀ u : State, u.itstate = s.itstate → (u.afterInstr i.iset).itstate = (s.afterInstr i.iset).itstate := by
    intro u hu
    cases i.iset <;> simp [State.afterInstr, hu]
  obtain ⟨n, u, -, rfl, ⟨-, hu⟩ | ⟨c, hc', -⟩⟩ := exec_next h
  · apply key
    unfold State.execDefined at hu
    split at hu
    · obtain ⟨v, target, hv, rfl, -⟩ := loadMultiple_sameButX hu
      exact hv.fields.2.2.2.2.2.2.1
    · obtain ⟨-, rfl⟩ := advance_ok hu
      rfl
  · rw [hc] at hc'
    cases hc'

end Sys2Proof.Machine
end

