-- ==== Sys2Proof/Laws/PerInstr.lean ====
section
/-! SUPPORT. Statements about every instruction as written: the family FixedBits says that an encoded instruction has
the fixed bits of its row of the opcode table (spec/30_encoding.md R62, R64). -/

namespace Sys2Proof.Laws.FixedBits

/-- The encoded word has the fixed bits of its encoding. -/
def Statement (i : Instr) : Prop :=
  match i.iset with
  | .a32 => encode i &&& maskA1 = matchA1
  | .t32 => encode i &&& maskT1 = matchT1

theorem ldmdbA1 (cond : BitVec 4) (w : Bool) (rn : BitVec 4) (registerList : BitVec 16) :
    Statement (.ldmdbA1 cond w rn registerList) := encodeA1_fixed cond w rn registerList

theorem ldmdbT1 (w : Bool) (rn : BitVec 4) (p m : Bool) (registerList : BitVec 14) :
    Statement (.ldmdbT1 w rn p m registerList) := encodeT1_fixed w rn p m registerList

theorem ldmeaA1 (cond : BitVec 4) (w : Bool) (rn : BitVec 4) (registerList : BitVec 16) :
    Statement (.ldmeaA1 cond w rn registerList) := encodeA1_fixed cond w rn registerList

theorem ldmeaT1 (w : Bool) (rn : BitVec 4) (p m : Bool) (registerList : BitVec 14) :
    Statement (.ldmeaT1 w rn p m registerList) := encodeT1_fixed w rn p m registerList

end Sys2Proof.Laws.FixedBits
end

