-- ==== Sys2Proof/Tests/Slice0.lean ====
section
/-! SUPPORT. The model's own tests: the ill-formed terms; words written out from the diagrams of spec/30_encoding.md;
single steps whose results spec/95_test_vectors.md gives (the vector is named at each); and for each statement with
hypotheses a state and operands that meet them together. -/

namespace Sys2Proof.Tests

open Sys2Proof.Machine

/-! Small states. -/

/-- The standard data of the vectors: the word at `a` is `0xA0000000 + a`, for `a` from `0x1000` to `0x103C`. -/
def data : Memory :=
  (List.range 16).flatMap fun k =>
    [(0x1000 + 4 * k, BitVec.ofNat 8 (4 * k)), (0x1001 + 4 * k, 0x10#8), (0x1002 + 4 * k, 0x00#8),
      (0x1003 + 4 * k, 0xA0#8)]

/-- A launch at `0x8000` with the given code and the value of one register. -/
def launch (t : ISet) (it : BitVec 8) (code : List Byte) (n : Fin 15) (v : Word) : State :=
  { State.reset with
    x := State.reset.x.set n.val v, t := t, itstate := it, pc := 0x8000#32, mem := data.writeBytes 0x8000 code }

/-- The same with other bytes at an address. -/
def withBytes (s : State) (a : Nat) (bytes : List Byte) : State := { s with mem := s.mem.writeBytes a bytes }

/-- The same with a CU_POLICY that admits everything. -/
def admitting (s : State) : State :=
  { s with params := { s.params with
      cuPolicy :=
        { emptyList := .allow, singleRegisterT1 := .allow, lrAndPcT1 := .allow, writebackBaseInList := .allow,
          r13InListT1 := .allow } } }

/-- What a test looks at in a next state. -/
def see {α : Type} (f : State → α) : Host.Outcome State Fault Refusal → Option α
  | .next t => some (f t)
  | .fault _ => none
  | .refused _ => none

/-- The state of vector X2: `LDMDB R0!, {R1, R2}` in A32. -/
def x2 : State := launch .a32 0#8 [0x06#8, 0x00#8, 0x30#8, 0xE9#8] 0 0x1010#32

/-- The state of vector X16: `LDMDB.W R0!, {R1, R2}` in T32. -/
def x16 : State := launch .t32 0#8 [0x30#8, 0xE9#8, 0x06#8, 0x00#8] 0 0x1010#32

/-- The state of vectors X4 to X7: `LDMDB R0, {PC}` with a target word whose lowest byte is `low`. -/
def x4 (low : Byte) : State :=
  withBytes (launch .a32 0#8 [0x00#8, 0x80#8, 0x10#8, 0xE9#8] 0 0x1010#32) 0x100C [low, 0x81#8, 0x00#8, 0x00#8]

/-- The state of vector X17, with the given `ITSTATE`: `LDMDB.W R7, {R4, R5, PC}`, target `0x8101`. -/
def x17 (it : BitVec 8) : State :=
  withBytes (launch .t32 it [0x17#8, 0xE9#8, 0x30#8, 0x80#8] 7 0x1010#32) 0x100C [0x01#8, 0x81#8, 0x00#8, 0x00#8]

/-! Well-formed terms: the one check, on each constructor that has it (R66, R69). -/

theorem test_wf_refuses_ldmdbA1_cond1111 : (Instr.ldmdbA1 15#4 true 0#4 0x0006#16).wf = false := by decide
theorem test_wf_refuses_ldmeaA1_cond1111 : (Instr.ldmeaA1 15#4 true 0#4 0x0006#16).wf = false := by decide
theorem test_wf_accepts_unpredictable_operands : (Instr.ldmdbT1 true 15#4 true true 0#14).wf = true := by decide

/-! Decoding, of words written out box by box from S1 and S2 (cond, 100, P U op W L, Rn, list; 1110100, opc, 0 W L, Rn,
P, M, list), and of their bytes (E2, E9, E14, F3, F12, G1). -/

theorem test_decode_ldmdbA1 :
    decode .a32 (bytesOfBits .a32 0b1110_100_1_0_0_1_1_0000_0000000000000110#32)
      = .ok (.ldmdbA1 14#4 true 0#4 0x0006#16, []) := by decide

theorem test_decode_ldmdbT1 :
    decode .t32 (bytesOfBits .t32 0b1110100_10_0_0_1_0111_1_0_00000000110000#32)
      = .ok (.ldmdbT1 false 7#4 true false 0x0030#14, []) := by decide

/-- `LDMEA R0!, {R1, R2}` has the bits of E2, and they decode to the preferred spelling. -/
theorem test_decode_ldmeaA1 :
    encode (.ldmeaA1 14#4 true 0#4 0x0006#16) = 0b1110_100_1_0_0_1_1_0000_0000000000000110#32 ∧
    decodeBits .a32 0b1110_100_1_0_0_1_1_0000_0000000000000110#32
      = .ok (Instr.ldmeaA1 14#4 true 0#4 0x0006#16).preferred := by decide

/-- `LDMEA.W R7, {R4, R5, PC}` has the bits of F3. -/
theorem test_decode_ldmeaT1 :
    encode (.ldmeaT1 false 7#4 true false 0x0030#14) = 0b1110100_10_0_0_1_0111_1_0_00000000110000#32 ∧
    decodeBits .t32 0b1110100_10_0_0_1_0111_1_0_00000000110000#32
      = .ok (Instr.ldmeaT1 false 7#4 true false 0x0030#14).preferred := by decide

theorem test_decode_bytes_rest :
    decode .a32 [0x06#8, 0x00#8, 0x30#8, 0xE9#8, 0xAA#8] = .ok (.ldmdbA1 14#4 true 0#4 0x0006#16, [0xAA#8]) := by
  decide

theorem test_decode_refuses_cond1111 : decodeBits .a32 0xF9100006#32 = .error (.condIs1111 0xF9100006#32) := by decide
theorem test_decode_refuses_op : decodeBits .a32 0xE9500006#32 = .error (.fixedBitsA1 0xE9500006#32) := by decide
theorem test_decode_refuses_opc : decodeBits .t32 0xE8B00006#32 = .error (.fixedBitsT1 0xE8B00006#32) := by decide
theorem test_decode_truncated : decode .t32 [0x30#8, 0xE9#8, 0x06#8] = .error .truncated := by decide

theorem test_table_words :
    decodeTableWord 32 0xE9300006 = some (.ldmdbT1 true 0#4 false false 0x0006#14) ∧
    decodeTableWord 32 0x09300002 = some (.ldmdbA1 0#4 true 0#4 0x0002#16) ∧
    decodeTableWord 32 0xF9100006 = none := by decide

/-! Steps. -/

/-- Vector X2 (LDMDB A1). -/
theorem test_x2 :
    see (fun t => (t.getX 1, t.getX 2, t.getX 0, t.pc)) (step x2)
      = some (0xA0001008#32, 0xA000100C#32, 0x00001008#32, 0x00008004#32) := by decide

/-- Vector X26 (LDMDB A1): all sixteen registers, the base among them. -/
theorem test_x26 :
    see (fun t => (t.getX 0, t.getX 13, t.getX 14, t.pc, t.t))
      (step (withBytes (launch .a32 0#8 [0xFF#8, 0xFF#8, 0x1D#8, 0xE9#8] 13 0x1040#32) 0x103C
        [0x01#8, 0x90#8, 0x00#8, 0x00#8]))
      = some (0xA0001000#32, 0xA0001034#32, 0xA0001038#32, 0x00009000#32, .t32) := by decide

/-- Vector X16 (LDMDB T1). -/
theorem test_x16 :
    see (fun t => (t.getX 1, t.getX 2, t.getX 0, t.pc, t.t, t.itstate)) (step x16)
      = some (0xA0001008#32, 0xA000100C#32, 0x00001008#32, 0x00008004#32, .t32, 0x00#8) := by decide

/-- Vector X19 (LDMDB T1): the last instruction of an IT block may load the PC. -/
theorem test_x19 :
    see (fun t => (t.getX 4, t.getX 5, t.getX 7, t.pc, t.t, t.itstate)) (step { x17 0x08#8 with flagZ := true })
      = some (0xA0001004#32, 0xA0001008#32, 0x00001010#32, 0x00008100#32, .t32, 0x00#8) := by decide

/-- Vector X2 in the other spelling (LDMEA A1). -/
theorem test_x2_ldmea :
    see (fun t => (t.getX 1, t.getX 2, t.getX 0, t.pc)) (exec (.ldmeaA1 14#4 true 0#4 0x0006#16) x2)
      = some (0xA0001008#32, 0xA000100C#32, 0x00001008#32, 0x00008004#32) := by decide

/-- Vector X32 in the other spelling (LDMEA T1): the IT state advances from 0C to 18. -/
theorem test_x32_ldmea :
    see (fun t => (t.getX 1, t.getX 2, t.getX 0, t.pc, t.itstate))
      (exec (.ldmeaT1 true 0#4 false false 0x0006#14) { x16 with itstate := 0x0C#8, flagZ := true })
      = some (0xA0001008#32, 0xA000100C#32, 0x00001008#32, 0x00008004#32, 0x18#8) := by decide

/-- Vector X15: the first word is refused, so nothing is loaded although the second could be. -/
theorem test_x15 :
    step (launch .a32 0#8 [0x06#8, 0x00#8, 0x30#8, 0xE9#8] 0 0x1004#32)
      = .fault (.dataAbort (.refused .translation) 0x00000FFC#32) := rfl

/-- Vector X22: big-endian data, little-endian instruction. -/
theorem test_x22 :
    see (fun t => (t.getX 1, t.getX 2)) (step { x2 with params := { x2.params with bigEnd := true } })
      = some (0x081000A0#32, 0x0C1000A0#32) := by decide

/-! Hypotheses met: encoding and decode. -/

theorem witness_A1Selection :
    (0xE9300006#32 &&& 0x0FD00000#32 = 0x09100000#32 ∧ (0xE9300006#32).extractLsb' 28 4 ≠ 0b1111#4) ∧
    ¬(0xF9300006#32 &&& 0x0FD00000#32 = 0x09100000#32 ∧ (0xF9300006#32).extractLsb' 28 4 ≠ 0b1111#4) ∧
    ¬(0xE9500006#32 &&& 0x0FD00000#32 = 0x09100000#32 ∧ (0xE9500006#32).extractLsb' 28 4 ≠ 0b1111#4) := by decide

theorem witness_T1Selection :
    0xE9300006#32 &&& 0xFFD00000#32 = 0xE9100000#32 ∧ 0xE8B00006#32 &&& 0xFFD00000#32 ≠ 0xE9100000#32 := by decide

theorem witness_DecodeOfEncode :
    (Instr.ldmdbA1 14#4 true 0#4 0x0006#16).wf = true ∧ (Instr.ldmdbT1 true 0#4 false false 0x0006#14).wf = true ∧
    (Instr.ldmeaA1 0#4 true 15#4 0xFFFF#16).wf = true ∧ (Instr.ldmeaT1 true 15#4 true true 0x3FFF#14).wf = true := by
  decide

theorem witness_EncodeOfDecode :
    decodeBits .a32 0xE9300006#32 = .ok (.ldmdbA1 14#4 true 0#4 0x0006#16) ∧
    decodeBits .t32 0xE9300006#32 = .ok (.ldmdbT1 true 0#4 false false 0x0006#14) := by decide

theorem witness_DecodeOperands :
    ((decodedOf (.ldmdbA1 14#4 true 0#4 0x0006#16) x2).cases = []) ∧
    ((decodedOf (.ldmeaA1 14#4 true 15#4 0x8000#16) x2).cases = [.baseIsPC, .writebackBaseInList]) ∧
    ((decodedOf (.ldmdbT1 false 7#4 true false 0x0030#14) (x17 0x08#8)).cases = []) ∧
    ((decodedOf (.ldmeaT1 false 7#4 true false 0x0030#14) (x17 0x0C#8)).cases = [.pcLoadInsideITBlock]) := by decide

/-! Hypotheses met: the step. -/

theorem witness_StepRunsDecodedInstruction :
    x2.itFormed = true ∧ pcAligned x2.t x2.pc = true ∧
    x2.loadByte x2.pc.toNat = .ok 0x06#8 ∧ x2.loadByte (x2.pc.toNat + 1) = .ok 0x00#8 ∧
    x2.loadByte (x2.pc.toNat + 2) = .ok 0x30#8 ∧ x2.loadByte (x2.pc.toNat + 3) = .ok 0xE9#8 ∧
    decode x2.t [0x06#8, 0x00#8, 0x30#8, 0xE9#8] = .ok (.ldmdbA1 14#4 true 0#4 0x0006#16, []) := by decide

theorem witness_StepRunsDecodedInstruction_t32 :
    x16.itFormed = true ∧ pcAligned x16.t x16.pc = true ∧
    x16.loadByte x16.pc.toNat = .ok 0x30#8 ∧ x16.loadByte (x16.pc.toNat + 1) = .ok 0xE9#8 ∧
    x16.loadByte (x16.pc.toNat + 2) = .ok 0x06#8 ∧ x16.loadByte (x16.pc.toNat + 3) = .ok 0x00#8 ∧
    decode x16.t [0x30#8, 0xE9#8, 0x06#8, 0x00#8] = .ok (.ldmdbT1 true 0#4 false false 0x0006#14, []) := by decide

/-- Vector X28, and the like in T32. -/
theorem witness_MisalignedPcFaults :
    (let s := { x2 with pc := 0x8002#32 }
     s.itFormed = true ∧ (s.t = .a32 ∧ s.pc.toNat % 4 ≠ 0 ∨ s.t = .t32 ∧ s.pc.toNat % 2 ≠ 0)) ∧
    (let s := { x16 with pc := 0x8001#32 }
     s.itFormed = true ∧ (s.t = .a32 ∧ s.pc.toNat % 4 ≠ 0 ∨ s.t = .t32 ∧ s.pc.toNat % 2 ≠ 0)) := by decide

/-- Vector X29 (the first byte refused), and a fetch at the end of the code (the last two refused). -/
theorem witness_RefusedFetchFaults :
    (let s := { x2 with pc := 0x7000#32 }
     s.itFormed = true ∧ pcAligned s.t s.pc = true ∧ s.loadByte (s.pc.toNat + 0) = .error .translation) ∧
    (let s := { x16 with pc := 0x8002#32 }
     s.itFormed = true ∧ pcAligned s.t s.pc = true ∧ s.loadByte (s.pc.toNat + 3) = .error .translation) := by decide

/-- Vectors X30 and X31. -/
theorem witness_OtherWordsAreNotInScope :
    (let s := launch .a32 0#8 [0x06#8, 0x00#8, 0xB0#8, 0xE8#8] 0 0x1010#32
     s.itFormed = true ∧ s.fetch = .ok 0xE8B00006#32 ∧
       decodeBits s.t 0xE8B00006#32 = .error (.fixedBitsA1 0xE8B00006#32)) ∧
    (let s := { x2 with t := .t32 }
     s.itFormed = true ∧ s.fetch = .ok 0x0006E930#32 ∧
       decodeBits s.t 0x0006E930#32 = .error (.fixedBitsT1 0x0006E930#32)) := by decide

theorem witness_IllFormedItStateIsRefused :
    let s := { x2 with itstate := 0x08#8 }
    s.t = .a32 ∧ s.itstate ≠ 0#8 := by decide

theorem witness_PlacedTableWordRunsNext :
    decodeTableWord 32 0xE9300006 = some (.ldmdbT1 true 0#4 false false 0x0006#14) ∧
    decodeTableWord 32 0x09100000 = some (.ldmdbA1 0#4 false 0#4 0x0000#16) := by decide

/-! Hypotheses met: conditions and the IT state. -/

theorem witness_T1ConditionComesFromItState :
    (let s := x17 0x1C#8
     s.t = .t32 ∧ s.itstate.extractLsb' 0 4 ≠ 0#4) ∧
    (let s := x17 0x00#8
     s.t = .t32 ∧ s.itstate.extractLsb' 0 4 = 0#4) := by decide

theorem witness_ItStateAdvance_a1 : ∃ t, exec (.ldmdbA1 14#4 true 0#4 0x0006#16) x2 = .next t := ⟨_, rfl⟩

theorem witness_ItStateAdvance_last :
    (x17 0x18#8).itstate.extractLsb' 0 3 = 0#3 ∧
    ∃ t, exec (.ldmdbT1 false 7#4 true false 0x0030#14) (x17 0x18#8) = .next t := ⟨by decide, _, rfl⟩

/-- Vector X18 at the end of an IT block: T32 to A32. -/
theorem witness_ItStateAdvance_toA32 :
    let s := withBytes (x17 0x18#8) 0x100C [0x00#8]
    s.t = .t32 ∧ ∃ t, exec (.ldmdbT1 false 7#4 true false 0x0030#14) s = .next t ∧ t.t = .a32 :=
  ⟨by decide, _, rfl, by decide⟩

theorem witness_ItStateAdvance_mid :
    (decodedOf (.ldmdbT1 true 0#4 false false 0x0006#14) { x16 with itstate := 0x1C#8 }).cases = [] ∧
    ({ x16 with itstate := 0x1C#8 } : State).itstate.extractLsb' 0 3 ≠ 0#3 ∧
    ∃ t, exec (.ldmdbT1 true 0#4 false false 0x0006#14) { x16 with itstate := 0x1C#8 } = .next t :=
  ⟨by decide, by decide, _, rfl⟩

/-! Hypotheses met: the operation. -/

theorem ready_x2 : LoadsReady x2 0 0x0006#16 ∧ PcReady x2 0 0x0006#16 := by
  refine ⟨⟨by decide, by decide, by decide⟩, ?_⟩
  rw [PcReady, if_neg (by decide)]
  decide

theorem ready_x16 : LoadsReady x16 0 0x0006#16 ∧ PcReady x16 0 0x0006#16 := by
  refine ⟨⟨by decide, by decide, by decide⟩, ?_⟩
  rw [PcReady, if_neg (by decide)]
  decide

theorem ready_x17 (it : BitVec 8) (h : it = 0x00#8 ∨ it = 0x08#8 ∨ it = 0x18#8) :
    LoadsReady (x17 it) 7 0x8030#16 ∧ PcReady (x17 it) 7 0x8030#16 := by
  rcases h with rfl | rfl | rfl
  all_goals
    refine ⟨⟨by decide, by decide, by decide⟩, ?_⟩
    rw [PcReady, if_pos (by decide)]
    intro v hv
    cases hv
    exact .inl (by decide)

theorem operates_x2 : Operates (.ldmdbA1 14#4 true 0#4 0x0006#16) x2 0 := ⟨by decide, by decide, by decide⟩
/-- Whatever the target word's low bits. -/
theorem operates_x4 (low : Byte) (h : low = 0x00#8 ∨ low = 0x01#8 ∨ low = 0x02#8 ∨ low = 0x03#8) :
    Operates (.ldmdbA1 14#4 false 0#4 0x8000#16) (x4 low) 0 ∧ LoadsReady (x4 low) 0 0x8000#16 := by
  rcases h with rfl | rfl | rfl | rfl <;>
    exact ⟨⟨by decide, by decide, by decide⟩, ⟨by decide, by decide, by decide⟩⟩

theorem operates_x16 : Operates (.ldmdbT1 true 0#4 false false 0x0006#14) x16 0 := ⟨by decide, by decide, by decide⟩
theorem operates_x17 : Operates (.ldmdbT1 false 7#4 true false 0x0030#14) (x17 0x18#8) 7 :=
  ⟨by decide, by decide, by decide⟩

theorem witness_A1LoadsListedRegisters :
    (0#4).toNat = (0 : Fin 15).val ∧ 0x0006#16 ≠ 0#16 ∧
    ¬(true = true ∧ (0x0006#16).getLsbD (0 : Fin 15).val = true) ∧ x2.conditionPassed 14#4 = true ∧
    LoadsReady x2 0 0x0006#16 ∧ PcReady x2 0 0x0006#16 :=
  ⟨by decide, by decide, by decide, by decide, ready_x2.1, ready_x2.2⟩

theorem witness_T1LoadsListedRegisters :
    (7#4).toNat = (7 : Fin 15).val ∧ 2 ≤ bitCount (listT1 true false 0x0030#14) ∧ ¬(true = true ∧ false = true) ∧
    ¬(false = true ∧ (listT1 true false 0x0030#14).getLsbD (7 : Fin 15).val = true) ∧
    (0x0030#14).getLsbD 13 = false ∧
    ¬(true = true ∧ (x17 0x18#8).inITBlock = true ∧ (x17 0x18#8).lastInITBlock = false) ∧
    (x17 0x18#8).conditionPassed (x17 0x18#8).itCond = true ∧
    LoadsReady (x17 0x18#8) 7 (listT1 true false 0x0030#14) ∧ PcReady (x17 0x18#8) 7 (listT1 true false 0x0030#14) :=
  ⟨by decide, by decide, by decide, by decide, by decide, by decide, by decide,
    (ready_x17 _ (.inr (.inr rfl))).1, (ready_x17 _ (.inr (.inr rfl))).2⟩

/-- The lowest listed register, two neighbours (R4, then R15), and the highest listed register. -/
theorem witness_WordAddressesEndJustBelowBase :
    ((0x8010#16).getLsbD 4 = true ∧ listedBelow 0x8010#16 4 = 0) ∧
    ((0x8010#16).getLsbD 15 = true ∧ ∀ j : Fin 15, 4 < j.val → (0x8010#16).getLsbD j.val = false) ∧
    (0xFFFF#16).getLsbD 0 = true ∧ (0xFFFF#16).getLsbD 15 = true ∧ listedBelow 0xFFFF#16 15 = 15 := by decide

/-- Vectors X13 (misaligned), X12 (a wrap) and X16 (completing). -/
theorem witness_AddressComputation :
    (let s := launch .a32 0#8 [0x06#8, 0x00#8, 0x30#8, 0xE9#8] 0 0x1012#32
     Operates (.ldmdbA1 14#4 true 0#4 0x0006#16) s 0 ∧
       0x100A#32 = s.getX 0 - BitVec.ofNat 32 (4 * bitCount 0x0006#16) ∧ (0x100A#32).toNat % 4 ≠ 0) ∧
    (let s := launch .a32 0#8 [0x06#8, 0x00#8, 0x30#8, 0xE9#8] 0 0x0004#32
     Operates (.ldmdbA1 14#4 true 0#4 0x0006#16) s 0 ∧
       0xFFFFFFFC#32 = s.getX 0 - BitVec.ofNat 32 (4 * bitCount 0x0006#16) ∧ (0xFFFFFFFC#32).toNat % 4 = 0 ∧
       0 < (s.getX 0).toNat ∧ (s.getX 0).toNat < 4 * bitCount 0x0006#16) ∧
    Operates (.ldmdbT1 true 0#4 false false 0x0006#14) x16 0 ∧
    0x1008#32 = x16.getX 0 - BitVec.ofNat 32 (4 * bitCount 0x0006#16) ∧ LoadsReady x16 0 0x0006#16 ∧
    PcReady x16 0 0x0006#16 :=
  ⟨⟨⟨by decide, by decide, by decide⟩, by decide, by decide⟩,
    ⟨⟨by decide, by decide, by decide⟩, by decide, by decide, by decide, by decide⟩, operates_x16, by decide,
    ready_x16.1, ready_x16.2⟩

theorem witness_LoadsInRegisterOrder :
    Operates (.ldmdbT1 true 0#4 false false 0x0006#14) x16 0 ∧ LoadsReady x16 0 0x0006#16 ∧ PcReady x16 0 0x0006#16 :=
  ⟨operates_x16, ready_x16.1, ready_x16.2⟩

/-- The first word refused (X15), and the second one refused: bases `0x1004` and `0x1044`. -/
theorem witness_LoadsInRegisterOrder_fault :
    (let s := launch .a32 0#8 [0x06#8, 0x00#8, 0x30#8, 0xE9#8] 0 0x1004#32
     wordAligned (s.getX 0) = true ∧ wraps (s.getX 0) 0x0006#16 = false ∧
       s.memRead (startAddress (s.getX 0) 0x0006#16 + BitVec.ofNat 32 (4 * 0))
         = .error (.dataAbort (.refused .translation) 0x0FFC#32)) ∧
    (let s := launch .a32 0#8 [0x06#8, 0x00#8, 0x30#8, 0xE9#8] 0 0x1044#32
     wordAligned (s.getX 0) = true ∧ wraps (s.getX 0) 0x0006#16 = false ∧
       s.reads (startAddress (s.getX 0) 0x0006#16 + BitVec.ofNat 32 (4 * 0)) = true ∧
       s.memRead (startAddress (s.getX 0) 0x0006#16 + BitVec.ofNat 32 (4 * 1))
         = .error (.dataAbort (.refused .translation) 0x1040#32)) := by decide

theorem witness_WritebackGivesLowestAddress :
    (decodedOf (.ldmdbA1 14#4 true 0#4 0x0006#16) x2).wback = true ∧
    (decodedOf (.ldmdbA1 14#4 false 0#4 0x0006#16) x2).wback = false ∧
    (decodedOf (.ldmdbA1 14#4 false 0#4 0x0006#16) x2).registers.getLsbD (0 : Fin 15).val = false ∧
    Operates (.ldmdbA1 14#4 true 0#4 0x0006#16) x2 0 ∧ Operates (.ldmdbA1 14#4 false 0#4 0x0006#16) x2 0 ∧
    LoadsReady x2 0 0x0006#16 ∧ PcReady x2 0 0x0006#16 :=
  ⟨by decide, by decide, by decide, operates_x2, ⟨by decide, by decide, by decide⟩, ready_x2.1, ready_x2.2⟩

/-- Target words `0x8101`, `0x8103`, `0x8100` and `0x8102` (X4 to X7). -/
theorem witness_LoadedPcBranches :
    (∀ low : Byte, low = 0x00#8 ∨ low = 0x01#8 ∨ low = 0x02#8 ∨ low = 0x03#8 →
      Operates (.ldmdbA1 14#4 false 0#4 0x8000#16) (x4 low) 0 ∧ LoadsReady (x4 low) 0 0x8000#16) ∧
    (0x8000#16).getLsbD 15 = true ∧
    (x4 0x01#8).memRead ((x4 0x01#8).getX 0 - 4#32) = .ok 0x8101#32 ∧ (0x8101#32).getLsbD 0 = true ∧
    (x4 0x03#8).memRead ((x4 0x03#8).getX 0 - 4#32) = .ok 0x8103#32 ∧ (0x8103#32).getLsbD 0 = true ∧
    (x4 0x00#8).memRead ((x4 0x00#8).getX 0 - 4#32) = .ok 0x8100#32 ∧ (0x8100#32).extractLsb' 0 2 = 0b00#2 ∧
    (x4 0x02#8).memRead ((x4 0x02#8).getX 0 - 4#32) = .ok 0x8102#32 ∧ (0x8102#32).extractLsb' 0 2 = 0b10#2 ∧
    (x4 0x02#8).params.forceAlignPc = none :=
  ⟨operates_x4, by decide, by decide, by decide, by decide, by decide, by decide, by decide,
    by decide, by decide, by decide⟩

/-- The same state under the two settings of A32_FORCE_ALIGN_PC. -/
theorem witness_LoadedPcBranches_forced (b : Bool) :
    let s := { x4 0x02#8 with params := { (x4 0x02#8).params with forceAlignPc := some b } }
    Operates (.ldmdbA1 14#4 false 0#4 0x8000#16) s 0 ∧ LoadsReady s 0 0x8000#16 ∧
    s.memRead (s.getX 0 - 4#32) = .ok 0x8102#32 :=
  by cases b <;> exact ⟨⟨by decide, by decide, by decide⟩, ⟨by decide, by decide, by decide⟩, by decide⟩

/-- Vectors X2 and X24 (a): the PC below the top, and at its last word. -/
theorem witness_PcAdvancesByFour :
    (decodedOf (.ldmdbA1 14#4 true 0#4 0x0006#16) x2).registers.getLsbD 15 = false ∧ x2.pc.toNat < 0xFFFFFFFC ∧
    (let s := { x2 with pc := 0xFFFFFFFC#32 }
     Operates (.ldmdbA1 14#4 true 0#4 0x0006#16) s 0 ∧ LoadsReady s 0 0x0006#16 ∧ 0xFFFFFFFC ≤ s.pc.toNat) :=
  ⟨by decide, by decide, ⟨by decide, by decide, by decide⟩, ⟨by decide, by decide, by decide⟩, by decide⟩

/-- Vectors X8, X33 and X24 (c). -/
theorem witness_FailedConditionOnlyAdvances :
    Skips (.ldmdbA1 0#4 true 0#4 0x0006#16) x2 ∧ x2.pc.toNat < 0xFFFFFFFC ∧
    (let s := { x16 with itstate := 0x1C#8, flagZ := true }
     Skips (.ldmdbT1 true 0#4 false false 0x0006#14) s ∧ s.pc.toNat < 0xFFFFFFFC) ∧
    (let s := { x2 with pc := 0xFFFFFFFC#32 }
     Skips (.ldmdbA1 0#4 true 0#4 0x0006#16) s ∧ 0xFFFFFFFC ≤ s.pc.toNat) :=
  ⟨⟨by decide, by decide⟩, by decide, ⟨⟨by decide, by decide⟩, by decide⟩, ⟨by decide, by decide⟩, by decide⟩

/-- Vectors X8 and X33. -/
theorem witness_FailedConditionNeverLoads :
    (x2.conditionPassed (decodedOf (.ldmdbA1 0#4 true 0#4 0x0006#16) x2).cond = false ∧
      ∃ t, exec (.ldmdbA1 0#4 true 0#4 0x0006#16) x2 = .next t) ∧
    (let s := { x16 with itstate := 0x1C#8, flagZ := true }
     s.conditionPassed (decodedOf (.ldmdbT1 true 0#4 false false 0x0006#14) s).cond = false ∧
       ∃ t, exec (.ldmdbT1 true 0#4 false false 0x0006#14) s = .next t) :=
  ⟨⟨by decide, _, rfl⟩, by decide, _, rfl⟩

/-- Vector X27: `LDMDB R0!, {LR, PC}`. -/
theorem witness_A1LoadsLrAndPcTogether :
    (0#4).toNat = (0 : Fin 15).val ∧ (0xC000#16).extractLsb' 14 2 = 0b11#2 ∧
    ¬(true = true ∧ (0xC000#16).getLsbD (0 : Fin 15).val = true) ∧ (x4 0x00#8).conditionPassed 14#4 = true ∧
    LoadsReady (x4 0x00#8) 0 0xC000#16 ∧ PcReady (x4 0x00#8) 0 0xC000#16 := by
  refine ⟨by decide, by decide, by decide, by decide, ⟨by decide, by decide, by decide⟩, ?_⟩
  rw [PcReady, if_pos (by decide)]
  intro v hv
  cases hv
  exact .inl (by decide)

/-- Vector X3: `LDMDB R1, {R1, R2}`. -/
theorem witness_ListedBaseWithoutWriteback :
    let s := launch .a32 0#8 [0x06#8, 0x00#8, 0x11#8, 0xE9#8] 1 0x1010#32
    baseReg (decodedOf (.ldmdbA1 14#4 false 1#4 0x0006#16) s).rn = some 1 ∧
    (decodedOf (.ldmdbA1 14#4 false 1#4 0x0006#16) s).wback = false ∧
    Operates (.ldmdbA1 14#4 false 1#4 0x0006#16) s 1 ∧ (0x0006#16).getLsbD (1 : Fin 15).val = true ∧
    LoadsReady s 1 0x0006#16 ∧ PcReady s 1 0x0006#16 := by
  refine ⟨by decide, by decide, ⟨by decide, by decide, by decide⟩, by decide, ⟨by decide, by decide, by decide⟩, ?_⟩
  rw [PcReady, if_neg (by decide)]
  decide

/-! Hypotheses met: frames. -/

theorem witness_FlagsAreNeverWritten :
    (decodedOf (.ldmdbA1 14#4 true 0#4 0x0006#16) x2).cases = [] ∧
    (decodedOf (.ldmdbA1 14#4 true 0#4 0x0006#16) x2).registers.getLsbD 15 = false ∧
    (∃ t, exec (.ldmdbA1 14#4 true 0#4 0x0006#16) x2 = .next t) ∧
    ∃ t, exec (.ldmdbA1 14#4 false 0#4 0x8000#16) (x4 0x01#8) = .next t ∧ t.t ≠ (x4 0x01#8).t :=
  ⟨by decide, by decide, ⟨_, rfl⟩, _, rfl, by decide⟩

/-- An executed instruction that changes `T`, and one whose condition fails. -/
theorem witness_DefinedInstructionFrame :
    (decodedOf (.ldmdbA1 14#4 false 0#4 0x8000#16) (x4 0x01#8)).cases = [] ∧
    (∃ t, exec (.ldmdbA1 14#4 false 0#4 0x8000#16) (x4 0x01#8) = .next t ∧ t.t ≠ (x4 0x01#8).t) ∧
    x2.conditionPassed (decodedOf (.ldmdbA1 0#4 true 0#4 0x0006#16) x2).cond = false ∧
    ∃ t, exec (.ldmdbA1 0#4 true 0#4 0x0006#16) x2 = .next t :=
  ⟨by decide, ⟨_, rfl, by decide⟩, by decide, _, rfl⟩

theorem witness_StepKeepsMemoryAndLaunchArguments : ∃ t, step x16 = .next t := ⟨_, rfl⟩

theorem witness_OnlyTheBaseRegisterIsRead :
    (decodedOf (.ldmdbA1 14#4 true 0#4 0x0006#16) x2).cases = [] ∧
    baseReg (decodedOf (.ldmdbA1 14#4 true 0#4 0x0006#16) x2).rn = some 0 ∧ (1 : Fin 15) ≠ 0 ∧ (5 : Fin 15) ≠ 0 := by
  decide

/-! Hypotheses met: faults. -/

/-- Vector X13. -/
theorem witness_MisalignedBaseAborts :
    let s := launch .a32 0#8 [0x06#8, 0x00#8, 0x30#8, 0xE9#8] 0 0x1012#32
    Operates (.ldmdbA1 14#4 true 0#4 0x0006#16) s 0 ∧ (s.getX 0).toNat % 4 ≠ 0 :=
  ⟨⟨by decide, by decide, by decide⟩, by decide⟩

/-- Vectors X11 and X12, here with nothing at the top of memory, so that a base of 0 meets another fault. -/
theorem witness_AddressWrapFaults :
    (let s := launch .a32 0#8 [0x06#8, 0x00#8, 0x30#8, 0xE9#8] 0 0x0004#32
     Operates (.ldmdbA1 14#4 true 0#4 0x0006#16) s 0 ∧ (s.getX 0).toNat % 4 = 0 ∧ 0 < (s.getX 0).toNat ∧
       (s.getX 0).toNat < 4 * bitCount 0x0006#16) ∧
    (let s := launch .a32 0#8 [0x06#8, 0x00#8, 0x30#8, 0xE9#8] 0 0x0000#32
     Operates (.ldmdbA1 14#4 true 0#4 0x0006#16) s 0 ∧ (s.getX 0).toNat % 4 = 0 ∧ s.getX 0 = 0#32 ∧
       exec (.ldmdbA1 14#4 true 0#4 0x0006#16) s
         = .fault (.dataAbort (.refused .translation) 0xFFFFFFF8#32)) :=
  ⟨⟨⟨by decide, by decide, by decide⟩, by decide, by decide, by decide⟩,
    ⟨by decide, by decide, by decide⟩, by decide, by decide, rfl⟩

/-- Vectors E8 and X25: two cases, and one with a condition that fails. -/
theorem witness_DefaultPolicyFaultsWithFirstCase :
    x2.params.cuPolicy = .default ∧
    (decodedOf (.ldmdbA1 14#4 false 15#4 0x0000#16) x2).cases = [.baseIsPC, .emptyList] ∧
    (decodedOf (.ldmdbA1 0#4 false 0#4 0x0000#16) x2).cases = [.emptyList] := by decide

/-- Vectors F22 and F23. -/
theorem witness_TwoCasesAlwaysFault :
    (decodedOf (.ldmdbT1 true 15#4 true true 0x2000#14) x16).cases
      = [.baseIsPC, .lrAndPcT1, .writebackBaseInList, .r13InListT1] ∧
    (decodedOf (.ldmdbT1 true 1#4 false false 0x2002#14) (admitting x16)).cases
      = [.writebackBaseInList, .r13InListT1] := by decide

/-- Vectors E6 and F8. -/
theorem witness_BaseIsPcAlwaysFaults :
    (decodedOf (.ldmdbA1 14#4 false 15#4 0x0001#16) x2).rn = 0b1111#4 ∧
    (decodedOf (.ldmdbT1 true 15#4 false false 0x0006#14) x16).rn = 0b1111#4 := by decide

/-- Vectors F24 and F25, and a list that has another case as well. -/
theorem witness_PcLoadInsideItBlockFaults :
    (∀ it : BitVec 8, it = 0x0C#8 ∨ it = 0x04#8 →
      (decodedOf (.ldmdbT1 false 7#4 true false 0x0030#14) (x17 it)).registers.getLsbD 15 = true ∧
      (x17 it).inITBlock = true ∧ (x17 it).lastInITBlock = false ∧
      (decodedOf (.ldmdbT1 false 7#4 true false 0x0030#14) (x17 it)).cases = [.pcLoadInsideITBlock]) ∧
    (decodedOf (.ldmdbT1 false 7#4 true true 0x0030#14) (x17 0x0C#8)).cases = [.lrAndPcT1, .pcLoadInsideITBlock] := by
  refine ⟨?_, by decide⟩
  rintro it (rfl | rfl) <;> decide

/-! Hypotheses met: what CU_POLICY admits (vectors X35, F7, F5, F4, F6). -/

theorem witness_AdmittedWritebackBaseInList :
    let s := admitting (launch .a32 0#8 [0x10#8, 0xA8#8, 0x3B#8, 0xE9#8] 11 0x1010#32)
    baseReg (decodedOf (.ldmdbA1 14#4 true 11#4 0xA810#16) s).rn = some 11 ∧
    (decodedOf (.ldmdbA1 14#4 true 11#4 0xA810#16) s).cases = [.writebackBaseInList] ∧
    s.params.cuPolicy.writebackBaseInList = .allow := by decide

theorem witness_AdmittedR13InList :
    let s := admitting x16
    baseReg (decodedOf (.ldmdbT1 true 0#4 false false 0x2002#14) s).rn = some 0 ∧
    (decodedOf (.ldmdbT1 true 0#4 false false 0x2002#14) s).cases = [.r13InListT1] ∧
    s.params.cuPolicy.r13InListT1 = .allow := by decide

theorem witness_AdmittedEmptyList :
    let s := admitting x16
    baseReg (decodedOf (.ldmdbT1 true 0#4 false false 0x0000#14) s).rn = some 0 ∧
    (decodedOf (.ldmdbT1 true 0#4 false false 0x0000#14) s).cases = [.emptyList] ∧
    s.params.cuPolicy.emptyList = .allow := by decide

/-- The same in the middle of an IT block, where the unspecified set may include R15. -/
theorem witness_AdmittedEmptyList_mid :
    let s := admitting { x16 with itstate := 0x0C#8, flagZ := true }
    s.midITBlock = true ∧ (decodedOf (.ldmdbT1 true 0#4 false false 0x0000#14) s).cases = [.emptyList] ∧
    s.conditionPassed (decodedOf (.ldmdbT1 true 0#4 false false 0x0000#14) s).cond = true := by decide

/-- Listing L84 for a set with R15, in the middle of an IT block: the branch is taken (R93, R94), to T32 with the IT
state still to be advanced (R31), to A32 with a zero one (R30). -/
theorem test_loadSet_pc_mid_it :
    ((x17 0x0C#8).loadSet (decodedOf (.ldmdbT1 false 7#4 false false 0x0000#14) (x17 0x0C#8)) 7 0x8030#16 false 0#32).map
        (fun t => (t.getX 4, t.pc, t.t, t.itstate)) = .ok (0xA0001004#32, 0x8100#32, .t32, 0x0C#8) ∧
    (let s := withBytes (x17 0x0C#8) 0x100C [0x00#8]
     (s.loadSet (decodedOf (.ldmdbT1 false 7#4 false false 0x0000#14) s) 7 0x8030#16 false 0#32).map
        (fun t => (t.getX 4, t.pc, t.t, t.itstate)) = .ok (0xA0001004#32, 0x8100#32, .a32, 0x00#8)) := by decide

theorem witness_AdmittedSingleRegister :
    let s := admitting x16
    baseReg (decodedOf (.ldmdbT1 true 0#4 false false 0x0002#14) s).rn = some 0 ∧
    (decodedOf (.ldmdbT1 true 0#4 false false 0x0002#14) s).cases = [.singleRegisterT1] ∧
    s.params.cuPolicy.singleRegisterT1 = .allow := by decide

theorem witness_AdmittedLrAndPc :
    let s := admitting x16
    baseReg (decodedOf (.ldmdbT1 false 1#4 true true 0x0001#14) s).rn = some 1 ∧
    (decodedOf (.ldmdbT1 false 1#4 true true 0x0001#14) s).cases = [.lrAndPcT1] ∧
    s.params.cuPolicy.lrAndPcT1 = .allow := by decide

/-! Hypotheses met: memory and whole-machine rules. -/

theorem witness_MemReadByteOrder :
    (0x1009#32).toNat % 4 ≠ 0 ∧ (0x1008#32).toNat % 4 = 0 ∧
    x2.loadByte (0x1008#32).toNat = .ok 0x08#8 ∧ x2.loadByte ((0x1008#32).toNat + 1) = .ok 0x10#8 ∧
    x2.loadByte ((0x1008#32).toNat + 2) = .ok 0x00#8 ∧ x2.loadByte ((0x1008#32).toNat + 3) = .ok 0xA0#8 ∧
    x2.params.bigEnd = false ∧
    ({ x2 with params := { x2.params with bigEnd := true } } : State).loadByte 0x1008 = .ok 0x08#8 := by decide

/-- The fetches of X2 and X16. -/
theorem witness_FetchIgnoresDataByteOrder :
    (x2.t = .a32 ∧ pcAligned x2.t x2.pc = true ∧ x2.loadByte x2.pc.toNat = .ok 0x06#8 ∧
      x2.loadByte (x2.pc.toNat + 1) = .ok 0x00#8 ∧ x2.loadByte (x2.pc.toNat + 2) = .ok 0x30#8 ∧
      x2.loadByte (x2.pc.toNat + 3) = .ok 0xE9#8) ∧
    (x16.t = .t32 ∧ pcAligned x16.t x16.pc = true ∧ x16.loadByte x16.pc.toNat = .ok 0x30#8 ∧
      x16.loadByte (x16.pc.toNat + 1) = .ok 0xE9#8 ∧ x16.loadByte (x16.pc.toNat + 2) = .ok 0x06#8 ∧
      x16.loadByte (x16.pc.toNat + 3) = .ok 0x00#8) := by decide

theorem witness_ReadFaultsNameTheirAddress :
    x2.memRead 0x1009#32 = .error (.dataAbort .alignment 0x1009#32) ∧
    x2.memRead 0x1040#32 = .error (.dataAbort (.refused .translation) 0x1040#32) := by decide

theorem witness_StepKeepsFormed : x2.Formed ∧ ∃ t, step x2 = .next t :=
  ⟨⟨by decide, by decide, fun _ => by decide⟩, _, rfl⟩

theorem witness_LoadedPcStartsOutsideItBlock :
    (x17 0x18#8).t = .t32 ∧ Operates (.ldmdbT1 false 7#4 true false 0x0030#14) (x17 0x18#8) 7 ∧
    (decodedOf (.ldmdbT1 false 7#4 true false 0x0030#14) (x17 0x18#8)).registers.getLsbD 15 = true ∧
    ∃ t, exec (.ldmdbT1 false 7#4 true false 0x0030#14) (x17 0x18#8) = .next t :=
  ⟨by decide, operates_x17, by decide, _, rfl⟩

theorem witness_RunEndsAtHaltPc :
    let s := { x2 with pc := 0xFFFFFFFC#32 }
    s.launchFormed = true ∧ s.pc = s.params.haltPc := by decide

/-- A run of one step (the first of program P1). -/
theorem witness_RunsNeverChangeTheImage :
    ∃ t, runFrom 1 { x2 with params := { x2.params with haltPc := 0x8004#32 } } = .final t := ⟨_, rfl⟩

end Sys2Proof.Tests
end

namespace Sys2Proof.Machine

/-! ### What an instruction without an UNPREDICTABLE case answers -/

/-- The general register that a base field names. -/
theorem val_of_baseReg {rn : BitVec 4} {n : Fin 15} (h : baseReg rn = some n) : n.val = rn.toNat := by
  unfold baseReg at h
  split at h
  · cases h
    rfl
  · cases h

theorem exec_of_defined {i : Instr} {s : State} {n : Fin 15} (hn : baseReg (decodedOf i s).rn = some n)
    (hc : (decodedOf i s).cases = []) : exec i s = finish i.iset (s.execDefined (decodedOf i s) n) := by
  rw [exec_eq, execDecoded, hn, hc, decodedOf_iset]

theorem exec_defined_next {i : Instr} {s t : State} (hc : (decodedOf i s).cases = []) (h : exec i s = .next t) :
    ∃ n u, baseReg (decodedOf i s).rn = some n ∧ s.execDefined (decodedOf i s) n = .ok u ∧
      t = u.afterInstr i.iset := by
  obtain ⟨n, u, hn, ht, ⟨-, hu⟩ | ⟨c, hc', -⟩⟩ := exec_next h
  · exact ⟨n, u, hn, hu, ht⟩
  · rw [hc] at hc'
    cases hc'

/-- A defined instruction either performs listing L84 or, after a failed condition, only advances the PC (R81, R90). -/
theorem execDefined_ok {s u : State} {d : Decoded} {n : Fin 15} (h : s.execDefined d n = .ok u) :
    s.conditionPassed d.cond = true ∧
        s.loadMultiple n d.registers d.wback (Config.unknownWord s.draws) = .ok u ∨
      s.conditionPassed d.cond = false ∧ u = { s with pc := s.pc + 4#32 } := by
  unfold State.execDefined at h
  split at h
  · rename_i hp
    exact .inl ⟨hp, h⟩
  · rename_i hp
    exact .inr ⟨by simpa using hp, (advance_ok h).2⟩

/-- Of all but the general registers, a defined instruction writes the PC and `T` before the IT advance, and `T` only
where it loads the PC (R35). -/
theorem execDefined_sameButX {s u : State} {d : Decoded} {n : Fin 15} (h : s.execDefined d n = .ok u) :
    ∃ v target, SameButX s v ∧ u = v.setPc target ∧
      (target.2 ≠ s.t → d.registers.getLsbD 15 = true ∧ s.conditionPassed d.cond = true) := by
  rcases execDefined_ok h with ⟨hp, hl⟩ | ⟨-, rfl⟩
  · obtain ⟨v, target, hv, rfl, ht⟩ := loadMultiple_sameButX hl
    refine ⟨v, target, hv, rfl, fun hne => ⟨?_, hp⟩⟩
    by_contra hb
    exact hne (t_of_pcAfter ht (by simpa using hb))
  · exact ⟨s, (s.pc + 4#32, s.t), sameButX_refl s, rfl, fun hne => absurd rfl hne⟩

/-- A register that is neither listed nor the written-back base keeps its value. -/
theorem execDefined_getX_of_unlisted {s u : State} {d : Decoded} {n j : Fin 15} (h : s.execDefined d n = .ok u)
    (hj : d.registers.getLsbD j.val = false) (hb : d.wback = true → j ≠ n) : u.getX j = s.getX j := by
  rcases execDefined_ok h with ⟨-, hl⟩ | ⟨-, rfl⟩
  · have hx := loadMultiple_getX hl j
    rwa [if_neg fun hw => hb hw.1 hw.2, hj, if_neg (by decide)] at hx
  · rfl

theorem execDefined_getX_of_failed {s u : State} {d : Decoded} {n : Fin 15} (h : s.execDefined d n = .ok u)
    (hp : s.conditionPassed d.cond = false) (j : Fin 15) : u.getX j = s.getX j := by
  rcases execDefined_ok h with ⟨hp', -⟩ | ⟨-, rfl⟩
  · rw [hp] at hp'
    cases hp'
  · rfl

/-- Settles O33: the frame of a defined instruction, from the frame of its execution before the IT advance. -/
theorem definedInstructionFrame : Obligations.DefinedInstructionFrame := by
  intro i s t hc h
  have hit := exec_defined_itstate h hc
  obtain ⟨n, u, hn, hu, rfl⟩ := exec_defined_next hc h
  obtain ⟨v, target, hv, rfl, ht⟩ := execDefined_sameButX hu
  obtain ⟨-, hN, hZ, hC, hV, -, -, hdit, hmem, hparams, hdraws⟩ := hv.fields
  refine ⟨fun j hj hb => ?_, ?_, fun ha => ?_, ?_, ?_, ?_, ?_, ?_, fun a => ?_, ?_, ?_, fun hp j => ?_⟩
  · rw [State.afterInstr_getX]
    exact execDefined_getX_of_unlisted hu hj fun hw e => hb hw (e ▸ val_of_baseReg hn)
  · simpa using ht
  · rw [hit, ha, State.afterInstr_a32]
  · simpa using hN
  · simpa using hZ
  · simpa using hC
  · simpa using hV
  · simpa using hdit
  · simp [hmem]
  · simpa using hparams
  · simpa using hdraws
  · rw [State.afterInstr_getX]
    exact execDefined_getX_of_failed hu hp j

/-! ### Two runs side by side: what an execution looks at -/

/-- The next state of an outcome changed by `f`; a fault or a refusal stays as it is. -/
def mapNext (f : State → State) : Host.Outcome State Fault Refusal → Host.Outcome State Fault Refusal
  | .next s => .next (f s)
  | .fault r => .fault r
  | .refused r => .refused r

/-- Both states answer every read alike, and find the same new PC (R25, R44, R89). -/
structure SameView (s u : State) : Prop where
  memRead : ∀ a, u.memRead a = s.memRead a
  nextPc : u.nextPc = s.nextPc
  forceAlignPc : u.params.forceAlignPc = s.params.forceAlignPc

section
variable {s u : State} (h : SameView s u)
include h

theorem SameView.loadListed (registers : BitVec 16) (is : List (Fin 15)) (a : Word) :
    u.loadListed registers is a = s.loadListed registers is a := by
  induction is generalizing a with
  | nil => rfl
  | cons i is ih => simp only [State.loadListed, h.memRead, ih]

theorem SameView.loadDrawn (registers : BitVec 16) (address : Nat → Word) (is : List (Fin 15)) :
    u.loadDrawn registers address is = s.loadDrawn registers address is := by
  induction is with
  | nil => rfl
  | cons i is ih => simp only [State.loadDrawn, h.memRead, ih]

theorem SameView.pcAfter (registers : BitVec 16) (a : Word) : u.pcAfter registers a = s.pcAfter registers a := by
  simp only [State.pcAfter, h.memRead, h.nextPc, h.forceAlignPc]

theorem SameView.advance {f : State → State} (hf : ∀ target, u.setPc target = f (s.setPc target)) :
    u.advance = s.advance.map f := by
  rw [State.advance, State.advance, h.nextPc]
  cases s.nextPc with
  | error _ => rfl
  | ok target => exact congrArg Except.ok (hf target)

/-- From the same base, listing L84 ends alike in both states but for `f`, if `f` relates what the two write. -/
theorem SameView.loadMultiple {f : State → State} {n : Fin 15} {registers : BitVec 16} {wback : Bool} {w : Word}
    (hn : u.getX n = s.getX n)
    (hf : ∀ loads target start, loads.map Prod.fst = listedRegs registers →
      ((u.commit loads).writeback n registers wback start w).setPc target
        = f (((s.commit loads).writeback n registers wback start w).setPc target)) :
    u.loadMultiple n registers wback w = (s.loadMultiple n registers wback w).map f := by
  simp only [State.loadMultiple, hn, h.loadListed, h.pcAfter, bind, Except.bind, pure, Except.pure]
  cases checkRange (s.getX n) registers with
  | error _ => rfl
  | ok _ =>
    cases hl : s.loadListed registers loopRegs (startAddress (s.getX n) registers) with
    | error _ => rfl
    | ok r =>
      dsimp only
      cases s.pcAfter registers r.2 with
      | error _ => rfl
      | ok target => exact congrArg Except.ok (hf r.1 target _ (loadListed_ok hl).1)

end

theorem finish_map {f : State → State} {t : ISet} (hf : ∀ u, (f u).afterInstr t = f (u.afterInstr t))
    (r : Except Fault State) : finish t (r.map f) = mapNext f (finish t r) := by
  cases r with
  | error _ => rfl
  | ok u => exact congrArg Host.Outcome.next (hf u)

/-! ### A register other than the base (R22) -/

theorem State.setX_setX_self (s : State) (j : Fin 15) (v w : Word) : (s.setX j v).setX j w = s.setX j w := by
  simp [State.setX]

theorem State.setX_comm (s : State) {i j : Fin 15} (v w : Word) (h : i ≠ j) :
    (s.setX i v).setX j w = (s.setX j w).setX i v := by
  simp only [State.setX, Vector.set_comm _ _ (fun e => h (Fin.ext e))]

/-- `j` receives `v`, unless it keeps the value it has: the only trace that a change of `j` leaves. -/
def State.setUnless (keep : Bool) (j : Fin 15) (v : Word) (s : State) : State :=
  if keep then s else s.setX j v

section
variable {keep : Bool}

@[simp] theorem State.setUnless_pc (s : State) (j v) : (s.setUnless keep j v).pc = s.pc := by cases keep <;> rfl
@[simp] theorem State.setUnless_t (s : State) (j v) : (s.setUnless keep j v).t = s.t := by cases keep <;> rfl
@[simp] theorem State.setUnless_itstate (s : State) (j v) : (s.setUnless keep j v).itstate = s.itstate := by
  cases keep <;> rfl

theorem State.setUnless_setPc (s : State) (j : Fin 15) (v : Word) (target : Word × ISet) :
    (s.setUnless keep j v).setPc target = (s.setPc target).setUnless keep j v := by
  cases keep <;> rfl

theorem State.setUnless_afterInstr (s : State) (j : Fin 15) (v : Word) (t : ISet) :
    (s.setUnless keep j v).afterInstr t = (s.afterInstr t).setUnless keep j v := by
  cases keep <;> cases t <;> rfl

theorem State.setUnless_setX (s : State) {i j : Fin 15} (v w : Word) (h : j ≠ i) :
    (s.setUnless keep j v).setX i w = (s.setX i w).setUnless keep j v := by
  cases keep with
  | true => rfl
  | false => exact s.setX_comm v w h

theorem State.setUnless_writeback (s : State) {n j : Fin 15} (v : Word) (registers wback start unknown)
    (h : j ≠ n) : (s.setUnless keep j v).writeback n registers wback start unknown
      = (s.writeback n registers wback start unknown).setUnless keep j v := by
  cases wback with
  | false => rfl
  | true => exact s.setUnless_setX v _ h

theorem State.getX_setUnless_of_ne (s : State) {j k : Fin 15} (v : Word) (h : k ≠ j) :
    (s.setUnless keep j v).getX k = s.getX k := by
  cases keep with
  | true => rfl
  | false => exact s.getX_setX_of_ne v h

theorem State.getX_setUnless_self (s : State) (j : Fin 15) (v : Word) :
    (s.setUnless keep j v).getX j = if keep then s.getX j else v := by
  cases keep with
  | true => rfl
  | false => exact s.getX_setX_self j v

end

/-- A load of `j` overwrites an earlier change of it; loads of other registers leave it standing. -/
theorem commit_setX (loads : List (Fin 15 × Word)) (s : State) (j : Fin 15) (v : Word) :
    (s.setX j v).commit loads = (s.commit loads).setUnless (decide (j ∈ loads.map Prod.fst)) j v := by
  induction loads generalizing s with
  | nil => rfl
  | cons l ls ih =>
    change ((s.setX j v).setX l.1 l.2).commit ls = ((s.setX l.1 l.2).commit ls).setUnless _ j v
    by_cases hj : j = l.1
    · rw [← hj, State.setX_setX_self, State.setUnless, if_pos (by simp [hj])]
    · rw [State.setX_comm s v l.2 hj, ih]
      simp [State.setUnless, hj]

theorem sameView_setX (s : State) (j : Fin 15) (v : Word) : SameView s (s.setX j v) := ⟨fun _ => rfl, rfl, rfl⟩

theorem loadMultiple_setX (s : State) {n j : Fin 15} (registers : BitVec 16) (wback : Bool) (v w : Word)
    (h : j ≠ n) : (s.setX j v).loadMultiple n registers wback w
      = (s.loadMultiple n registers wback w).map (State.setUnless (registers.getLsbD j.val) j v) := by
  refine (sameView_setX s j v).loadMultiple (s.getX_setX_of_ne v h.symm) fun loads target start hl => ?_
  rw [commit_setX, hl, State.setUnless_writeback _ v _ _ _ _ h, State.setUnless_setPc]
  simp only [mem_listedRegs, Bool.decide_eq_true]

theorem execDefined_setX (s : State) (d : Decoded) {n j : Fin 15} (v : Word) (h : j ≠ n) :
    (s.setX j v).execDefined d n = (s.execDefined d n).map
      (State.setUnless (d.registers.getLsbD j.val && s.conditionPassed d.cond) j v) := by
  have hp : (s.setX j v).conditionPassed d.cond = s.conditionPassed d.cond := rfl
  rw [State.execDefined, State.execDefined, hp]
  cases s.conditionPassed d.cond with
  | true =>
    rw [Bool.and_true]
    exact loadMultiple_setX s _ _ v _ h
  | false =>
    rw [Bool.and_false]
    exact (sameView_setX s j v).advance fun _ => rfl

theorem exec_setX {i : Instr} {s : State} {n j : Fin 15} (v : Word) (hc : (decodedOf i s).cases = [])
    (hn : baseReg (decodedOf i s).rn = some n) (h : j ≠ n) :
    exec i (s.setX j v) = mapNext (State.setUnless ((decodedOf i s).registers.getLsbD j.val
      && s.conditionPassed (decodedOf i s).cond) j v) (exec i s) := by
  have hd : decodedOf i (s.setX j v) = decodedOf i s := by cases i <;> rfl
  rw [exec_of_defined (by rw [hd]; exact hn) (by rw [hd]; exact hc), exec_of_defined hn hc, hd,
    execDefined_setX s _ v h, finish_map fun u => u.setUnless_afterInstr j v _]

/-- Settles O35: the run from the changed state is the first run but for the changed register. -/
theorem onlyTheBaseRegisterIsRead : Obligations.OnlyTheBaseRegisterIsRead := by
  intro i s n j v hc hn hj
  rw [exec_setX v hc hn hj]
  cases exec i s with
  | fault f => rfl
  | refused r => rfl
  | next t =>
    refine ⟨_, rfl, t.setUnless_pc j v, t.setUnless_t j v, t.setUnless_itstate j v,
      fun k hk => t.getX_setUnless_of_ne v hk, ?_⟩
    rw [State.getX_setUnless_self]
    simp only [Bool.and_eq_true]

/-! ### The timing bits (R28, R52, R140) -/

/-- The state with other values of DIT, HAS_DIT and HAS_LSMAOC. -/
def State.retimed (dit hasDit hasLsmaoc : Bool) (s : State) : State :=
  { s with dit := dit, params := { s.params with hasDit := hasDit, hasLsmaoc := hasLsmaoc } }

section
variable (dit hasDit hasLsmaoc : Bool)

@[simp] theorem State.retimed_t (s : State) : (s.retimed dit hasDit hasLsmaoc).t = s.t := rfl
@[simp] theorem State.retimed_draws (s : State) : (s.retimed dit hasDit hasLsmaoc).draws = s.draws := rfl

theorem sameView_retimed (s : State) : SameView s (s.retimed dit hasDit hasLsmaoc) :=
  ⟨fun _ => rfl, rfl, rfl⟩

theorem State.retimed_afterInstr (s : State) (t : ISet) :
    (s.retimed dit hasDit hasLsmaoc).afterInstr t = (s.afterInstr t).retimed dit hasDit hasLsmaoc := by
  cases t <;> rfl

theorem State.retimed_itAfterBranch (s : State) (t before : ISet) :
    (s.retimed dit hasDit hasLsmaoc).itAfterBranch t before
      = (s.itAfterBranch t before).retimed dit hasDit hasLsmaoc := by
  unfold State.itAfterBranch
  rw [State.retimed_t]
  split <;> rfl

theorem State.retimed_commit (loads : List (Fin 15 × Word)) (s : State) :
    (s.retimed dit hasDit hasLsmaoc).commit loads = (s.commit loads).retimed dit hasDit hasLsmaoc := by
  induction loads generalizing s with
  | nil => rfl
  | cons l ls ih => exact ih (s.setX l.1 l.2)

theorem State.retimed_writeback (s : State) (n registers wback start unknown) :
    (s.retimed dit hasDit hasLsmaoc).writeback n registers wback start unknown
      = (s.writeback n registers wback start unknown).retimed dit hasDit hasLsmaoc := by
  cases wback <;> rfl

theorem advance_retimed (s : State) : (s.retimed dit hasDit hasLsmaoc).advance
    = s.advance.map (State.retimed dit hasDit hasLsmaoc) :=
  (sameView_retimed dit hasDit hasLsmaoc s).advance fun _ => rfl

theorem loadMultiple_retimed (s : State) (n : Fin 15) (registers : BitVec 16) (wback : Bool) (w : Word) :
    (s.retimed dit hasDit hasLsmaoc).loadMultiple n registers wback w
      = (s.loadMultiple n registers wback w).map (State.retimed dit hasDit hasLsmaoc) := by
  refine (sameView_retimed dit hasDit hasLsmaoc s).loadMultiple rfl fun loads target start _ => ?_
  rw [State.retimed_commit, State.retimed_writeback]
  rfl

theorem loadSet_retimed (s : State) (d : Decoded) (n : Fin 15) (set : BitVec 16) (wback : Bool) (w : Word) :
    (s.retimed dit hasDit hasLsmaoc).loadSet d n set wback w
      = (s.loadSet d n set wback w).map (State.retimed dit hasDit hasLsmaoc) := by
  rw [State.loadSet, State.loadSet, loadMultiple_retimed]
  cases s.loadMultiple n set wback w with
  | error _ => rfl
  | ok u => exact congrArg Except.ok (u.retimed_itAfterBranch dit hasDit hasLsmaoc d.iset s.t)

theorem loadSetAndBase_retimed (s : State) (d : Decoded) (n : Fin 15) (set : BitVec 16) (words : Nat) :
    (s.retimed dit hasDit hasLsmaoc).loadSetAndBase d n set words
      = (s.loadSetAndBase d n set words).map (State.retimed dit hasDit hasLsmaoc) := by
  rw [State.loadSetAndBase, State.loadSetAndBase, loadSet_retimed]
  cases s.loadSet d n set false 0#32 with
  | error _ => rfl
  | ok u =>
    refine congrArg Except.ok ?_
    cases d.wback <;> rfl

theorem loadLrAndPc_retimed (s : State) (n : Fin 15) (set : BitVec 16) (wback : Bool) (address : Nat → Word)
    (base : Word) : (s.retimed dit hasDit hasLsmaoc).loadLrAndPc n set wback address base
      = (s.loadLrAndPc n set wback address base).map (State.retimed dit hasDit hasLsmaoc) := by
  have hv := sameView_retimed dit hasDit hasLsmaoc s
  simp only [State.loadLrAndPc, hv.loadDrawn, hv.pcAfter, bind, Except.bind, State.retimed_commit,
    State.retimed_writeback]
  cases s.loadDrawn set address loopRegs with
  | error _ => rfl
  | ok loads => cases s.pcAfter set (address 15) <;> rfl

theorem perform_retimed (s : State) (d : Decoded) (n : Fin 15) (b : Behaviour) :
    (s.retimed dit hasDit hasLsmaoc).perform d n b
      = (s.perform d n b).map (State.retimed dit hasDit hasLsmaoc) := by
  cases b with
  | undef => rfl
  | nop => exact advance_retimed dit hasDit hasLsmaoc s
  | singleRegister => exact loadMultiple_retimed ..
  | baseUnknown => exact loadMultiple_retimed ..
  | r13Unknown =>
    simp only [State.perform, State.retimed_draws, loadMultiple_retimed]
    cases s.loadMultiple n d.registers d.wback (Config.unknownWord s.draws) <;> rfl
  | unspecifiedSet => exact loadSet_retimed ..
  | unspecifiedSetAndBase => exact loadSetAndBase_retimed ..
  | lrAndPcDrawn => exact loadLrAndPc_retimed ..

theorem execDefined_retimed (s : State) (d : Decoded) (n : Fin 15) :
    (s.retimed dit hasDit hasLsmaoc).execDefined d n
      = (s.execDefined d n).map (State.retimed dit hasDit hasLsmaoc) := by
  have hp : (s.retimed dit hasDit hasLsmaoc).conditionPassed d.cond = s.conditionPassed d.cond := rfl
  rw [State.execDefined, State.execDefined, hp]
  split
  · exact loadMultiple_retimed ..
  · exact advance_retimed ..

theorem execCase_retimed (s : State) (d : Decoded) (n : Fin 15) (c : UnpredCase) :
    (s.retimed dit hasDit hasLsmaoc).execCase d n c
      = (s.execCase d n c).map (State.retimed dit hasDit hasLsmaoc) := by
  have hb : (s.retimed dit hasDit hasLsmaoc).chosen c = s.chosen c := rfl
  have hp : (s.retimed dit hasDit hasLsmaoc).conditionPassed d.cond = s.conditionPassed d.cond := rfl
  rw [State.execCase, State.execCase, hb, hp]
  split
  · rfl
  · rfl
  · split
    · rw [perform_retimed]
      cases s.perform d n _ <;> rfl
    · rw [advance_retimed]
      cases s.advance <;> rfl

theorem exec_retimed (i : Instr) (s : State) : exec i (s.retimed dit hasDit hasLsmaoc)
    = mapNext (State.retimed dit hasDit hasLsmaoc) (exec i s) := by
  have hd : decodedOf i (s.retimed dit hasDit hasLsmaoc) = decodedOf i s := by cases i <;> rfl
  rw [exec_eq, exec_eq, hd, execDecoded, execDecoded]
  split
  · rw [execDefined_retimed, finish_map fun u => u.retimed_afterInstr dit hasDit hasLsmaoc _]
  · rw [execCase_retimed, finish_map fun u => u.retimed_afterInstr dit hasDit hasLsmaoc _]
  · rfl
  · rfl

theorem step_retimed (s : State) : step (s.retimed dit hasDit hasLsmaoc)
    = mapNext (State.retimed dit hasDit hasLsmaoc) (step s) := by
  have hf : (s.retimed dit hasDit hasLsmaoc).fetchInstr = s.fetchInstr := rfl
  rw [step, step, hf]
  cases s.fetchInstr with
  | next i => exact exec_retimed dit hasDit hasLsmaoc i s
  | fault f => rfl
  | refused r => rfl

end

/-- Settles O36: a step commutes with a change of the three timing bits. -/
theorem timingBitsChangeNoResult : Obligations.TimingBitsChangeNoResult := by
  intro s dit hasDit hasLsmaoc
  have hs := step_retimed dit hasDit hasLsmaoc s
  split
  next t h => exact hs.trans (congrArg _ h)
  next f h => exact hs.trans (congrArg _ h)
  next r h => exact hs.trans (congrArg _ h)

end Sys2Proof.Machine

namespace Sys2Proof.Machine

/-! ### What a step and a run leave of the machine (R34, R42, R54) -/

/-- A next state of a step is one of the fetched instruction (R81). -/
theorem step_next {s t : State} (h : step s = .next t) : ∃ i, s.fetchInstr = .next i ∧ exec i s = .next t := by
  unfold step at h
  split at h
  next i hi => exact ⟨i, hi, h⟩
  next => cases h
  next => cases h

theorem sameMachine_refl (s : State) : SameMachine s s := rfl

theorem SameMachine.trans {s u v : State} (h₁ : SameMachine s u) (h₂ : SameMachine u v) : SameMachine s v := by
  cases s; cases u; cases v; simp_all [SameMachine]

theorem sameMachine_afterInstr (s : State) (t : ISet) : SameMachine s (s.afterInstr t) := by
  cases t <;> rfl

/-- Under any CU_POLICY, a step writes nothing but the general registers, the PC, `T`, `ITSTATE` and the count of
draws. -/
theorem step_sameMachine {s t : State} (h : step s = .next t) : SameMachine s t := by
  obtain ⟨i, -, hi⟩ := step_next h
  obtain ⟨u, rfl, hu⟩ := exec_leaves hi
  exact hu.same.trans (sameMachine_afterInstr u _)

/-- Settles O34: the fields that a step does not write. -/
theorem stepKeepsMemoryAndLaunchArguments : Obligations.StepKeepsMemoryAndLaunchArguments := by
  intro s t h
  obtain ⟨hN, hZ, hC, hV, hdit, hmem, hparams⟩ := (step_sameMachine h).fields
  exact ⟨hmem, fun a => by rw [hmem], hparams, hN, hZ, hC, hV, hdit⟩

/-- A run that ends normally ends at the HALT_PC of its last state, on the machine it began on (R123). -/
theorem runSteps_final {k : Nat} {s t : State} (h : runSteps k s = .final t) :
    SameMachine s t ∧ t.pc = t.params.haltPc := by
  induction k generalizing s with
  | zero =>
    unfold runSteps at h
    split at h
    next hpc => cases h; exact ⟨sameMachine_refl _, hpc⟩
    next => cases h
  | succ k ih =>
    unfold runSteps at h
    split at h
    next hpc => cases h; exact ⟨sameMachine_refl _, hpc⟩
    next =>
      split at h
      next u hu =>
        obtain ⟨hsame, hpc⟩ := ih h
        exact ⟨(step_sameMachine hu).trans hsame, hpc⟩
      next => cases h
      next => cases h

/-- A run that ends normally took its steps from a formed launch state (R131). -/
theorem runFrom_final {k : Nat} {s t : State} (h : runFrom k s = .final t) :
    s.launchFormed = true ∧ runSteps k s = .final t := by
  unfold runFrom at h
  split at h
  next hs => exact ⟨hs, h⟩
  next => cases h

/-- Settles O57: every step keeps the machine, so a whole run does, its HALT_PC included. -/
theorem runsNeverChangeTheImage : Obligations.RunsNeverChangeTheImage := by
  intro k s t h
  obtain ⟨hsame, hpc⟩ := runSteps_final (runFrom_final h).2
  obtain ⟨-, -, -, -, -, hmem, hparams⟩ := hsame.fields
  exact ⟨hmem, hparams, hparams ▸ hpc⟩

end Sys2Proof.Machine

namespace Sys2Proof

/-! ### The fixed bits and the fields of the two diagrams (R61 to R64) -/

/-- Two words that agree under a mask have the same bits where the mask is set. -/
theorem getLsbD_eq_of_and_eq {v w mask : Word} (h : v &&& mask = w &&& mask) {j : Nat}
    (hj : mask.getLsbD j = true) : v.getLsbD j = w.getLsbD j := by
  simpa [BitVec.getLsbD_and, hj] using congrArg (BitVec.getLsbD · j) h

/-- Every bit of A1's diagram is fixed or lies in a named field (R61, R72). -/
theorem fixed_or_field_A1 :
    ∀ j < 32, maskA1.getLsbD j = true ∨ j < 16 ∨ (16 ≤ j ∧ j < 20) ∨ j = 21 ∨ 28 ≤ j := by decide

/-- Every bit of T1's diagram is fixed or lies in a named field (R63, R72). -/
theorem fixed_or_field_T1 :
    ∀ j < 32, maskT1.getLsbD j = true ∨ j < 14 ∨ j = 14 ∨ j = 15 ∨ (16 ≤ j ∧ j < 20) ∨ j = 21 := by decide

/-- The boxes of an A1 word put together again (R61). -/
theorem encodeA1_fields {w : Word} (h : w &&& maskA1 = matchA1) :
    encodeA1 (w.extractLsb' 28 4) (w.getLsbD 21) (w.extractLsb' 16 4) (w.extractLsb' 0 16) = w := by
  apply BitVec.eq_of_getLsbD_eq
  intro j hj
  obtain hfix | hl | ⟨hlo, hhi⟩ | rfl | hc := fixed_or_field_A1 j hj
  · exact getLsbD_eq_of_and_eq ((encodeA1_fixed ..).trans h.symm) hfix
  · simp [getLsbD_encodeA1, hl]
  · simp [getLsbD_encodeA1, show ¬j < 16 by omega, hhi, show j - 16 < 4 by omega, show 16 + (j - 16) = j by omega]
  · exact getLsbD_encodeA1 _ _ _ _ 21
  · simp [getLsbD_encodeA1, show ¬j < 16 by omega, show ¬j < 20 by omega, show j ≠ 20 by omega,
      show j ≠ 21 by omega, show ¬j < 28 by omega, show j - 28 < 4 by omega, show 28 + (j - 28) = j by omega]

/-- The boxes of a T1 pair put together again (R63). -/
theorem encodeT1_fields {w : Word} (h : w &&& maskT1 = matchT1) :
    encodeT1 (w.getLsbD 21) (w.extractLsb' 16 4) (w.getLsbD 15) (w.getLsbD 14) (w.extractLsb' 0 14) = w := by
  apply BitVec.eq_of_getLsbD_eq
  intro j hj
  obtain hfix | hl | rfl | rfl | ⟨hlo, hhi⟩ | rfl := fixed_or_field_T1 j hj
  · exact getLsbD_eq_of_and_eq ((encodeT1_fixed ..).trans h.symm) hfix
  · simp [getLsbD_encodeT1, hl]
  · exact getLsbD_encodeT1 _ _ _ _ _ 14
  · exact getLsbD_encodeT1 _ _ _ _ _ 15
  · simp [getLsbD_encodeT1, show ¬j < 14 by omega, show j ≠ 14 by omega, show j ≠ 15 by omega, hhi,
      show j - 16 < 4 by omega, show 16 + (j - 16) = j by omega]
  · exact getLsbD_encodeT1 _ _ _ _ _ 21

/-! The boxes of an encoded instruction, read back. -/

section
variable (cond : BitVec 4) (w : Bool) (rn : BitVec 4) (l : BitVec 16)

theorem encodeA1_cond : (encodeA1 cond w rn l).extractLsb' 28 4 = cond := by
  apply BitVec.eq_of_getLsbD_eq
  intro j hj
  simp [getLsbD_encodeA1, hj, show ¬28 + j < 16 by omega, show ¬28 + j < 20 by omega,
    show 28 + j ≠ 20 by omega, show 28 + j ≠ 21 by omega]

theorem encodeA1_writeback : (encodeA1 cond w rn l).getLsbD 21 = w := getLsbD_encodeA1 cond w rn l 21

theorem encodeA1_base : (encodeA1 cond w rn l).extractLsb' 16 4 = rn := by
  apply BitVec.eq_of_getLsbD_eq
  intro j hj
  simp [getLsbD_encodeA1, hj, show 16 + j < 20 by omega]

theorem encodeA1_list : (encodeA1 cond w rn l).extractLsb' 0 16 = l := by
  apply BitVec.eq_of_getLsbD_eq
  intro j hj
  simp [getLsbD_encodeA1, hj]

end

section
variable (w : Bool) (rn : BitVec 4) (p m : Bool) (l : BitVec 14)

theorem encodeT1_writeback : (encodeT1 w rn p m l).getLsbD 21 = w := getLsbD_encodeT1 w rn p m l 21

theorem encodeT1_base : (encodeT1 w rn p m l).extractLsb' 16 4 = rn := by
  apply BitVec.eq_of_getLsbD_eq
  intro j hj
  simp [getLsbD_encodeT1, hj, show 16 + j < 20 by omega, show ¬16 + j < 14 by omega,
    show 16 + j ≠ 14 by omega, show 16 + j ≠ 15 by omega]

theorem encodeT1_pc : (encodeT1 w rn p m l).getLsbD 15 = p := getLsbD_encodeT1 w rn p m l 15

theorem encodeT1_lr : (encodeT1 w rn p m l).getLsbD 14 = m := getLsbD_encodeT1 w rn p m l 14

theorem encodeT1_list : (encodeT1 w rn p m l).extractLsb' 0 14 = l := by
  apply BitVec.eq_of_getLsbD_eq
  intro j hj
  simp [getLsbD_encodeT1, hj]

end

/-! ### What each decoder answers (R62, R64) -/

theorem decodeA32_of_fixed {w : Word} (h : w &&& maskA1 = matchA1) (hc : w.extractLsb' 28 4 ≠ 0b1111#4) :
    decodeA32 w = .ok (.ldmdbA1 (w.extractLsb' 28 4) (w.getLsbD 21) (w.extractLsb' 16 4) (w.extractLsb' 0 16)) := by
  rw [decodeA32, if_pos h, if_neg hc]

theorem decodeA32_error {w : Word} (h : ¬(w &&& maskA1 = matchA1 ∧ w.extractLsb' 28 4 ≠ 0b1111#4)) :
    ∃ e, decodeA32 w = .error e := by
  by_cases hf : w &&& maskA1 = matchA1
  · have hc : w.extractLsb' 28 4 = 0b1111#4 := by simpa [hf] using h
    exact ⟨.condIs1111 w, by rw [decodeA32, if_pos hf, if_pos hc]⟩
  · exact ⟨.fixedBitsA1 w, if_neg hf⟩

theorem decodeT32_of_fixed {w : Word} (h : w &&& maskT1 = matchT1) :
    decodeT32 w = .ok (.ldmdbT1 (w.getLsbD 21) (w.extractLsb' 16 4) (w.getLsbD 15) (w.getLsbD 14)
      (w.extractLsb' 0 14)) := if_pos h

theorem decodeT32_error {w : Word} (h : w &&& maskT1 ≠ matchT1) : ∃ e, decodeT32 w = .error e :=
  ⟨.fixedBitsT1 w, if_neg h⟩

/-- What decodes as A32 is LDMDB A1 with the fields of the word, and the word has A1's fixed bits (R62). -/
theorem decodeA32_ok {w : Word} {i : Instr} (h : decodeA32 w = .ok i) :
    w &&& maskA1 = matchA1 ∧ w.extractLsb' 28 4 ≠ 0b1111#4 ∧
      i = .ldmdbA1 (w.extractLsb' 28 4) (w.getLsbD 21) (w.extractLsb' 16 4) (w.extractLsb' 0 16) := by
  by_cases hw : w &&& maskA1 = matchA1 ∧ w.extractLsb' 28 4 ≠ 0b1111#4
  · rw [decodeA32_of_fixed hw.1 hw.2] at h
    cases h
    exact ⟨hw.1, hw.2, rfl⟩
  · obtain ⟨e, he⟩ := decodeA32_error hw
    rw [he] at h
    cases h

/-- What decodes as T32 is LDMDB T1 with the fields of the pair, and the pair has T1's fixed bits (R64). -/
theorem decodeT32_ok {w : Word} {i : Instr} (h : decodeT32 w = .ok i) :
    w &&& maskT1 = matchT1 ∧ i = .ldmdbT1 (w.getLsbD 21) (w.extractLsb' 16 4) (w.getLsbD 15) (w.getLsbD 14)
      (w.extractLsb' 0 14) := by
  by_cases hw : w &&& maskT1 = matchT1
  · rw [decodeT32_of_fixed hw] at h
    cases h
    exact ⟨hw, rfl⟩
  · obtain ⟨e, he⟩ := decodeT32_error hw
    rw [he] at h
    cases h

theorem decodeA32_encodeA1 {cond : BitVec 4} (h : condWf cond = true) (w : Bool) (rn : BitVec 4) (l : BitVec 16) :
    decodeA32 (encodeA1 cond w rn l) = .ok (.ldmdbA1 cond w rn l) := by
  have hc : cond ≠ 0b1111#4 := by simpa [condWf] using h
  rw [decodeA32_of_fixed (encodeA1_fixed ..) (by rwa [encodeA1_cond]), encodeA1_cond, encodeA1_writeback,
    encodeA1_base, encodeA1_list]

theorem decodeT32_encodeT1 (w : Bool) (rn : BitVec 4) (p m : Bool) (l : BitVec 14) :
    decodeT32 (encodeT1 w rn p m l) = .ok (.ldmdbT1 w rn p m l) := by
  rw [decodeT32_of_fixed (encodeT1_fixed ..), encodeT1_writeback, encodeT1_base, encodeT1_pc, encodeT1_lr,
    encodeT1_list]

/-- Neither spelling leaves a mark in the bits (R75, R76). -/
theorem decodeBits_encode {i : Instr} (h : i.wf = true) : decodeBits i.iset (encode i) = .ok i.preferred := by
  cases i with
  | ldmdbA1 cond w rn l => exact decodeA32_encodeA1 h w rn l
  | ldmdbT1 w rn p m l => exact decodeT32_encodeT1 w rn p m l
  | ldmeaA1 cond w rn l => exact decodeA32_encodeA1 h w rn l
  | ldmeaT1 w rn p m l => exact decodeT32_encodeT1 w rn p m l

/-! ### The bytes in memory (R48) -/

/-- Neighbouring parts of a word joined are the part that spans them; the four bytes are the word. -/
theorem append_bytes (w : Word) :
    w.extractLsb' 24 8 ++ w.extractLsb' 16 8 ++ w.extractLsb' 8 8 ++ w.extractLsb' 0 8 = w := by
  have h16 : w.extractLsb' 24 8 ++ w.extractLsb' 16 8 = w.extractLsb' 16 16 :=
    BitVec.extractLsb'_append_extractLsb'_eq_extractLsb' rfl
  have h8 : w.extractLsb' 16 16 ++ w.extractLsb' 8 8 = w.extractLsb' 8 24 :=
    BitVec.extractLsb'_append_extractLsb'_eq_extractLsb' rfl
  have h0 : w.extractLsb' 8 24 ++ w.extractLsb' 0 8 = w.extractLsb' 0 32 :=
    BitVec.extractLsb'_append_extractLsb'_eq_extractLsb' rfl
  rw [h16, h8, h0, BitVec.extractLsb'_eq_self]

/-- The bits are read back from the bytes that hold them, in either layout. -/
theorem bitsOfBytes_bytesOfBits (t : ISet) (w : Word) :
    ∃ b0 b1 b2 b3, bytesOfBits t w = [b0, b1, b2, b3] ∧ bitsOfBytes t b0 b1 b2 b3 = w := by
  cases t with
  | a32 => exact ⟨_, _, _, _, rfl, append_bytes w⟩
  | t32 => exact ⟨_, _, _, _, rfl, append_bytes w⟩

theorem decode_bytesOfBits (t : ISet) (w : Word) (rest : List Byte) :
    decode t (bytesOfBits t w ++ rest) = (decodeBits t w).map (·, rest) := by
  obtain ⟨b0, b1, b2, b3, hbytes, hbits⟩ := bitsOfBytes_bytesOfBits t w
  rw [hbytes]
  simp only [List.cons_append, List.nil_append, decode, hbits]
  cases decodeBits t w <;> rfl

/-- Settles O3: the bits are those of the diagrams, and the bytes are those of the bits. -/
theorem decodeOfEncodeIsPreferredSpelling : Obligations.DecodeOfEncodeIsPreferredSpelling := by
  intro i rest h
  refine ⟨decodeBits_encode h, ?_⟩
  rw [encodeBytes, decode_bytesOfBits, decodeBits_encode h]
  rfl

/-- Settles O4: the fields of a word that decodes, put together again, are the word. -/
theorem encodeOfDecodeIsTheBits : Obligations.EncodeOfDecodeIsTheBits := by
  intro t w i h
  cases t with
  | a32 =>
    obtain ⟨hw, hc, rfl⟩ := decodeA32_ok h
    exact ⟨encodeA1_fields hw, rfl, bne_iff_ne.mpr hc, rfl⟩
  | t32 =>
    obtain ⟨hw, rfl⟩ := decodeT32_ok h
    exact ⟨encodeT1_fields hw, rfl, rfl, rfl⟩

/-! ### Selection (R62, R64) -/

/-- T1's mask keeps bits of the first halfword alone. -/
theorem and_maskT1 (w : Word) : w &&& maskT1 = (w.extractLsb' 16 16 &&& 0xFFD0#16) ++ 0#16 := by
  have hw : w.extractLsb' 16 16 ++ w.extractLsb' 0 16 = w :=
    (BitVec.extractLsb'_append_extractLsb'_eq_extractLsb' rfl).trans BitVec.extractLsb'_eq_self
  have hm : maskT1 = 0xFFD0#16 ++ 0#16 := by decide
  calc w &&& maskT1 = (w.extractLsb' 16 16 ++ w.extractLsb' 0 16) &&& (0xFFD0#16 ++ 0#16) := by rw [hw, hm]
    _ = (w.extractLsb' 16 16 &&& 0xFFD0#16) ++ 0#16 := by rw [BitVec.and_append, BitVec.and_zero]

/-- R64's two ways to say T1's fixed bits. -/
theorem fixedT1_iff (w : Word) : w &&& maskT1 = matchT1 ↔ w.extractLsb' 16 16 &&& 0xFFD0#16 = 0xE910#16 := by
  have hm : matchT1 = 0xE910#16 ++ 0#16 := by decide
  rw [and_maskT1, hm, BitVec.append_left_inj]

/-- Settles O2: the decoder tests R64's mask, which is a mask of the first halfword. -/
theorem t1SelectionIsMaskMatchOfFirstHalfword : Obligations.T1SelectionIsMaskMatchOfFirstHalfword :=
  fun w => ⟨fixedT1_iff w, decodeT32_of_fixed, decodeT32_error⟩

/-- Settles O1: the decoder's two tests are R62's. -/
theorem a1SelectionIsMaskMatchAndCond : Obligations.A1SelectionIsMaskMatchAndCond :=
  fun _ => ⟨fun h => decodeA32_of_fixed h.1 h.2, decodeA32_error⟩

/-- Settles O5: six words of the two diagrams, evaluated. -/
theorem specWordsDecode : Obligations.SpecWordsDecode := by
  unfold Obligations.SpecWordsDecode
  decide

end Sys2Proof

namespace Sys2Proof.Machine

/-! ### The operands and the UNPREDICTABLE cases of each encoding (R71, R82, R83) -/

/-- An empty list has no listed register, and any other has one (R10). -/
theorem bitCount_lt_one_iff (registers : BitVec 16) : bitCount registers < 1 ↔ registers = 0#16 := by
  rw [Nat.lt_one_iff, bitCount, listedBelow, List.countP_eq_zero]
  constructor
  · intro h
    apply BitVec.eq_of_getLsbD_eq
    intro j hj
    simpa using h j (List.mem_range.mpr hj)
  · rintro rfl
    simp

theorem casesA1_eq_nil_iff (rn : BitVec 4) (registers : BitVec 16) (wback : Bool) :
    casesA1 rn registers wback = [] ↔
      rn ≠ 0b1111#4 ∧ registers ≠ 0#16 ∧ ¬(wback = true ∧ registers.getLsbD rn.toNat = true) := by
  simp only [casesA1, bitCount_lt_one_iff, List.append_eq_nil_iff, ite_eq_right_iff, imp_false,
    List.cons_ne_nil, Bool.and_eq_true, and_assoc, ne_eq]

/-- The two cases of a short list are one condition on `BitCount` (R93, R94). -/
theorem casesT1_eq_nil_iff (rn : BitVec 4) (registers : BitVec 16) (wback midIT : Bool) :
    casesT1 rn registers wback midIT = [] ↔
      rn ≠ 0b1111#4 ∧ 2 ≤ bitCount registers ∧ ¬(registers.getLsbD 15 = true ∧ registers.getLsbD 14 = true) ∧
      ¬(wback = true ∧ registers.getLsbD rn.toNat = true) ∧ registers.getLsbD 13 = false ∧
      ¬(registers.getLsbD 15 = true ∧ midIT = true) := by
  have hcount : 2 ≤ bitCount registers ↔ ¬bitCount registers < 1 ∧ ¬bitCount registers = 1 := by omega
  rw [hcount]
  simp only [casesT1, List.append_eq_nil_iff, ite_eq_right_iff, imp_false, List.cons_ne_nil, Bool.and_eq_true,
    and_assoc, ne_eq, Bool.not_eq_true]

/-- `registers = P : M : register_list`, bit by bit (R68). -/
theorem getLsbD_listT1 (p m : Bool) (l : BitVec 14) (j : Nat) :
    (listT1 p m l).getLsbD j = if j < 14 then l.getLsbD j else if j = 14 then m else if j = 15 then p else false := by
  have h : (listT1 p m l).getLsbD j
      = BitVec.getLsbD (w := 1 + 1 + 14) (BitVec.ofBool p ++ BitVec.ofBool m ++ l) j := rfl
  rw [h]
  simp only [BitVec.getLsbD_append]
  obtain hj | rfl | rfl | hj : j < 14 ∨ j = 14 ∨ j = 15 ∨ 16 ≤ j := by omega
  · simp [hj]
  · simp
  · simp
  · simp [show ¬j < 14 by omega, show ¬j - 14 < 1 by omega, show j ≠ 14 by omega, show j ≠ 15 by omega,
      show j - 14 - 1 ≠ 0 by omega]

theorem midITBlock_iff (s : State) : s.midITBlock = true ↔ s.inITBlock = true ∧ s.lastInITBlock = false := by
  simp [State.midITBlock]

/-- Settles O7: the two spellings have one Decode. -/
theorem a1DecodeOperandsAndCases : Obligations.A1DecodeOperandsAndCases := by
  intro i cond w rn l s hi
  have hd : decodedOf i s = decodedA1 (encode i) cond w rn l := by rcases hi with rfl | rfl <;> rfl
  rw [hd]
  exact ⟨rfl, rfl, rfl, rfl, casesA1_eq_nil_iff rn l w⟩

/-- Settles O8: the two spellings have one Decode, whose list is `P : M : register_list`. -/
theorem t1DecodeOperandsAndCases : Obligations.T1DecodeOperandsAndCases := by
  intro i w rn p m l s hi
  have hd : decodedOf i s = decodedT1 s (encode i) w rn p m l := by rcases hi with rfl | rfl <;> rfl
  have hcases := casesT1_eq_nil_iff rn (listT1 p m l) w s.midITBlock
  have h13 : (listT1 p m l).getLsbD 13 = l.getLsbD 13 := getLsbD_listT1 p m l 13
  have h14 : (listT1 p m l).getLsbD 14 = m := getLsbD_listT1 p m l 14
  have h15 : (listT1 p m l).getLsbD 15 = p := getLsbD_listT1 p m l 15
  rw [h13, h14, h15, midITBlock_iff] at hcases
  rw [hd]
  exact ⟨rfl, rfl, getLsbD_listT1 p m l, hcases⟩

end Sys2Proof.Machine

namespace Sys2Proof.Machine

/-! ### Word addresses (R85) -/

/-- Registers that are not listed add nothing to the count of the listed ones below. -/
theorem listedBelow_eq_of_unlisted {registers : BitVec 16} {i k : Nat} (hik : i ≤ k)
    (h : ∀ j, i ≤ j → j < k → registers.getLsbD j = false) : listedBelow registers k = listedBelow registers i := by
  induction hik with
  | refl => rfl
  | step hle ih =>
    rw [Nat.succ_eq_add_one, listedBelow_succ, h _ hle (Nat.lt_succ_self _)]
    simpa using ih fun j hj hlt => h j hj (Nat.lt_succ_of_lt hlt)

/-- Between two neighbours in the list the count rises by one. -/
theorem listedBelow_next {registers : BitVec 16} {i k : Nat} (hi : registers.getLsbD i = true) (hik : i < k)
    (h : ∀ j, i < j → j < k → registers.getLsbD j = false) :
    listedBelow registers k = listedBelow registers i + 1 := by
  rw [listedBelow_eq_of_unlisted hik fun j hj => h j hj, listedBelow_succ, if_pos hi]

theorem listedBelow_lt_bitCount {registers : BitVec 16} {i : Nat} (hi : i < 16) (h : registers.getLsbD i = true) :
    listedBelow registers i < bitCount registers := by
  have hle := listedBelow_mono registers (show i + 1 ≤ 16 from hi)
  rw [listedBelow_succ, if_pos h] at hle
  exact hle

/-- The last of the `k` words lies just below the base. -/
theorem startAddress_add_last (base : Word) {registers : BitVec 16} {j : Nat} (h : bitCount registers = j + 1) :
    startAddress base registers + BitVec.ofNat 32 (4 * j) = base - 4#32 := by
  have hj : BitVec.ofNat 32 (4 * (j + 1)) = BitVec.ofNat 32 (4 * j) + 4#32 := by
    rw [Nat.mul_succ, BitVec.ofNat_add]
  rw [startAddress, h, hj]
  ring

/-- Settles O20: the addresses follow the count of the listed registers below. -/
theorem wordAddressesEndJustBelowBase : Obligations.WordAddressesEndJustBelowBase := by
  intro s n l i hi hl
  refine ⟨fun h0 => ?_, fun k hik _ _ hgap => ?_, fun hlast => startAddress_add_last _ ?_⟩
  · rw [wordAddress, h0]
    exact BitVec.add_zero _
  · rw [wordAddress, wordAddress, listedBelow_next hl hik hgap, Nat.mul_succ, BitVec.ofNat_add, BitVec.add_assoc]
  · exact listedBelow_next hl hi hlast

/-! ### The interworking branch (R89) -/

/-- A word with its low `k` bits put to zero. -/
theorem append_zeros_eq_and {m k : Nat} (v : BitVec (m + k)) :
    v.extractLsb' k m ++ 0#k = v &&& ~~~BitVec.ofNat (m + k) (2 ^ k - 1) := by
  apply BitVec.eq_of_getLsbD_eq
  intro j hj
  have hones : (BitVec.ofNat (m + k) (2 ^ k - 1)).getLsbD j = decide (j < k) := by
    rw [BitVec.getLsbD_ofNat, Nat.testBit_two_pow_sub_one, decide_eq_true hj, Bool.true_and]
  rw [BitVec.getLsbD_append, BitVec.getLsbD_and, BitVec.getLsbD_not, hones]
  by_cases hk : j < k
  · simp [hk]
  · simp [hk, hj, show j - k < m by omega, show k + (j - k) = j by omega]

theorem branchTarget_of_bit0 {fa : Option Bool} {v : Word} (h : v.getLsbD 0 = true) :
    branchTarget fa v = .ok (v &&& ~~~1#32, .t32) := by
  have ha : v.extractLsb' 1 31 ++ 0b0#1 = v &&& ~~~1#32 := append_zeros_eq_and (m := 31) (k := 1) v
  unfold branchTarget
  rw [if_pos h, ha]

/-- Bits [1:0] of a word, by its two low bits. -/
theorem low_bits_eq_iff (v : Word) (b : BitVec 2) :
    v.extractLsb' 0 2 = b ↔ v.getLsbD 0 = b.getLsbD 0 ∧ v.getLsbD 1 = b.getLsbD 1 := by
  constructor
  · rintro rfl
    simp
  · rintro ⟨h0, h1⟩
    apply BitVec.eq_of_getLsbD_eq
    intro j hj
    obtain rfl | rfl : j = 0 ∨ j = 1 := by omega
    · simpa using h0
    · simpa using h1

theorem branchTarget_of_low00 {fa : Option Bool} {v : Word} (h : v.extractLsb' 0 2 = 0b00#2) :
    branchTarget fa v = .ok (v, .a32) := by
  obtain ⟨h0, h1⟩ := (low_bits_eq_iff v _).1 h
  unfold branchTarget
  rw [h0, h1]
  rfl

/-- Bits [1:0] = 10: the fault, or what A32_FORCE_ALIGN_PC says. -/
theorem branchTarget_of_low10 {v : Word} (h : v.extractLsb' 0 2 = 0b10#2) :
    branchTarget none v = .error (.unpredictableBranchAlign v) ∧
      branchTarget (some true) v = .ok (v &&& ~~~3#32, .a32) ∧ branchTarget (some false) v = .ok (v, .a32) := by
  obtain ⟨h0, h1⟩ := (low_bits_eq_iff v _).1 h
  have ha : v.extractLsb' 2 30 ++ 0b00#2 = v &&& ~~~3#32 := append_zeros_eq_and (m := 30) (k := 2) v
  unfold branchTarget
  rw [h0, h1, ← ha]
  exact ⟨rfl, rfl, rfl⟩

theorem branchTarget_ok {fa : Option Bool} {v : Word} (h : v.extractLsb' 0 2 ≠ 0b10#2 ∨ fa ≠ none) :
    ∃ target, branchTarget fa v = .ok target := by
  unfold branchTarget
  split
  · exact ⟨_, rfl⟩
  · next h0 =>
    split
    · next h1 =>
      have hv : v.extractLsb' 0 2 = 0b10#2 := (low_bits_eq_iff v _).2 ⟨by simpa using h0, by simpa using h1⟩
      match fa, h with
      | none, h => exact absurd hv (by simpa using h)
      | some true, _ => exact ⟨_, rfl⟩
      | some false, _ => exact ⟨_, rfl⟩
    · exact ⟨_, rfl⟩

/-! ### When the operation runs and what it leaves (R84 to R89) -/

theorem exec_of_operates {i : Instr} {s : State} {n : Fin 15} (h : Operates i s n) :
    exec i s = finish i.iset
      (s.loadMultiple n (decodedOf i s).registers (decodedOf i s).wback (Config.unknownWord s.draws)) := by
  obtain ⟨hn, hc, hp⟩ := h
  rw [exec_of_defined hn hc, State.execDefined, if_pos hp]

/-- The case WritebackBaseInList is what its name says, in both encodings (R92). -/
theorem writebackBaseInList_mem_cases_iff (i : Instr) (s : State) :
    UnpredCase.writebackBaseInList ∈ (decodedOf i s).cases ↔ (decodedOf i s).wback = true ∧
      (decodedOf i s).registers.getLsbD (decodedOf i s).rn.toNat = true := by
  cases i <;> simp [decodedOf, decodedA1, decodedT1, casesA1, casesT1]

/-- Where writeback to a listed base is no case of the instruction, a written-back base is not listed. -/
theorem base_unlisted_of_wback {i : Instr} {s : State} {n : Fin 15} (hn : baseReg (decodedOf i s).rn = some n)
    (hc : UnpredCase.writebackBaseInList ∉ (decodedOf i s).cases) (hw : (decodedOf i s).wback = true) :
    (decodedOf i s).registers.getLsbD n.val = false := by
  rw [writebackBaseInList_mem_cases_iff] at hc
  rw [val_of_baseReg hn]
  simpa [hw] using hc

theorem emptyList_mem_cases_iff (i : Instr) (s : State) :
    UnpredCase.emptyList ∈ (decodedOf i s).cases ↔ bitCount (decodedOf i s).registers < 1 := by
  cases i <;> simp [decodedOf, decodedA1, decodedT1, casesA1, casesT1]

theorem Operates.base_unlisted {i : Instr} {s : State} {n : Fin 15} (h : Operates i s n)
    (hw : (decodedOf i s).wback = true) : (decodedOf i s).registers.getLsbD n.val = false := by
  obtain ⟨hn, hc, -⟩ := h
  exact base_unlisted_of_wback hn (hc ▸ List.not_mem_nil) hw

theorem Operates.bitCount_pos {i : Instr} {s : State} {n : Fin 15} (h : Operates i s n) :
    1 ≤ bitCount (decodedOf i s).registers := by
  obtain ⟨-, hc, -⟩ := h
  have hne : UnpredCase.emptyList ∉ (decodedOf i s).cases := hc ▸ List.not_mem_nil
  rw [emptyList_mem_cases_iff] at hne
  omega

/-- A word that `reads` promises. -/
theorem memRead_of_reads {s : State} {a : Word} (h : s.reads a = true) : ∃ v, s.memRead a = .ok v := by
  unfold State.reads at h
  split at h
  next v hv => exact ⟨v, hv⟩
  next => cases h

/-- The loop over R0 to R14 ends at the PC's word (R86, R88). -/
theorem loadListed_loopRegs_of_reads {s : State} {n : Fin 15} {registers : BitVec 16}
    (hr : ∀ k, k < listedBelow registers 15 →
      ∃ v, s.memRead (startAddress (s.getX n) registers + BitVec.ofNat 32 (4 * k)) = .ok v) :
    ∃ loads, s.loadListed registers loopRegs (startAddress (s.getX n) registers)
      = .ok (loads, wordAddress s n registers 15) := by
  obtain ⟨⟨loads, a⟩, hl⟩ := loadListed_of_reads (registers := registers) loopRegs
    (startAddress (s.getX n) registers) fun k hk => hr k (length_listedRegs registers ▸ hk)
  obtain ⟨hregs, ha, -⟩ := loadListed_ok hl
  have hlen : loads.length = listedBelow registers 15 := by
    rw [← length_listedRegs, ← List.length_map (f := Prod.fst), hregs, listedRegs]
  exact ⟨loads, by rw [hl, ha, hlen, wordAddress]⟩

theorem LoadsReady.memRead {s : State} {n : Fin 15} {registers : BitVec 16} (h : LoadsReady s n registers) {j : Nat}
    (hj : j < bitCount registers) :
    ∃ v, s.memRead (startAddress (s.getX n) registers + BitVec.ofNat 32 (4 * j)) = .ok v := by
  obtain ⟨-, -, hr⟩ := h
  exact memRead_of_reads (hr j hj)

theorem LoadsReady.memRead_wordAddress {s : State} {n : Fin 15} {registers : BitVec 16}
    (h : LoadsReady s n registers) {i : Nat} (hi : i < 16) (hb : registers.getLsbD i = true) :
    ∃ v, s.memRead (wordAddress s n registers i) = .ok v :=
  h.memRead (listedBelow_lt_bitCount hi hb)

theorem LoadsReady.checkRange {s : State} {n : Fin 15} {registers : BitVec 16} (h : LoadsReady s n registers) :
    checkRange (s.getX n) registers = .ok () := by
  obtain ⟨ha, hw, -⟩ := h
  exact checkRange_of_ready ha hw

theorem pcAfter_of_listed {s : State} {registers : BitVec 16} {a v : Word} (h : registers.getLsbD 15 = true)
    (hv : s.memRead a = .ok v) : s.pcAfter registers a = branchTarget s.params.forceAlignPc v := by
  rw [State.pcAfter, if_pos h, hv]
  rfl

/-- The new PC is found where the words can be read and it can be set. -/
theorem pcAfter_of_ready {s : State} {n : Fin 15} {registers : BitVec 16} (hl : LoadsReady s n registers)
    (hp : PcReady s n registers) : ∃ target, s.pcAfter registers (wordAddress s n registers 15) = .ok target := by
  unfold PcReady at hp
  split at hp
  next h15 =>
    obtain ⟨v, hv⟩ := hl.memRead_wordAddress (by decide) h15
    rw [pcAfter_of_listed h15 hv]
    exact branchTarget_ok (hp v (wordAddress_pc h15 ▸ hv))
  next h15 => exact ⟨_, (if_neg h15).trans (nextPc_of_lt hp)⟩

/-- The new PC of listing L84 is the one its last read found. -/
theorem loadMultiple_pcAfter {s t : State} {n : Fin 15} {registers : BitVec 16} {wback : Bool} {u : Word}
    (h : s.loadMultiple n registers wback u = .ok t) :
    s.pcAfter registers (wordAddress s n registers 15) = .ok (t.pc, t.t) := by
  obtain ⟨v, target, -, rfl, hp⟩ := loadMultiple_sameButX h
  exact hp

/-- What an instruction that reaches its operation leaves where it completes: each listed register has its word, a
written-back base has the start address, no other register is written, and the new PC is `target` (R86 to R89). -/
structure Completed (d : Decoded) (s : State) (n : Fin 15) (target : Word × ISet) (t : State) : Prop where
  listed : ∀ j : Fin 15, d.registers.getLsbD j.val = true →
    s.memRead (wordAddress s n d.registers j.val) = .ok (t.getX j)
  base : d.wback = true → t.getX n = startAddress (s.getX n) d.registers
  unlisted : ∀ j : Fin 15, d.registers.getLsbD j.val = false → (d.wback = true → j ≠ n) → t.getX j = s.getX j
  pc : t.pc = target.1
  t : t.t = target.2

theorem exec_completes {i : Instr} {s : State} {n : Fin 15} {target : Word × ISet} (ho : Operates i s n)
    (hl : LoadsReady s n (decodedOf i s).registers)
    (hp : s.pcAfter (decodedOf i s).registers (wordAddress s n (decodedOf i s).registers 15) = .ok target) :
    ∃ t, exec i s = .next t ∧ Completed (decodedOf i s) s n target t := by
  obtain ⟨u, hu⟩ := loadMultiple_of_ready hl.checkRange
    (fun k hk => hl.memRead (hk.trans_le (listedBelow_mono _ (by decide)))) hp (decodedOf i s).wback
    (Config.unknownWord s.draws)
  have htarget : target = (u.pc, u.t) := Except.ok.inj (hp.symm.trans (loadMultiple_pcAfter hu))
  have hx := loadMultiple_getX hu
  refine ⟨u.afterInstr i.iset, by rw [exec_of_operates ho, hu]; rfl, ?_⟩
  exact
    { listed := fun j hj => by
        have hne : ¬((decodedOf i s).wback = true ∧ j = n) := by
          rintro ⟨hw, rfl⟩
          rw [ho.base_unlisted hw] at hj
          cases hj
        simpa [hne, hj] using hx j
      base := fun hw => by simpa [hw, ho.base_unlisted hw] using hx n
      unlisted := fun j hj hw => by simpa [hj, show ¬(_ ∧ j = n) from fun h => hw h.1 h.2] using hx j
      pc := by simp [htarget]
      t := by simp [htarget] }

/-- The same, where all that is asked of the PC is that it can be set. -/
theorem exec_of_ready {i : Instr} {s : State} {n : Fin 15} (ho : Operates i s n)
    (hl : LoadsReady s n (decodedOf i s).registers) (hp : PcReady s n (decodedOf i s).registers) :
    ∃ t target, exec i s = .next t ∧ Completed (decodedOf i s) s n target t ∧
      s.pcAfter (decodedOf i s).registers (wordAddress s n (decodedOf i s).registers 15) = .ok target := by
  obtain ⟨target, htarget⟩ := pcAfter_of_ready hl hp
  obtain ⟨t, ht, hc⟩ := exec_completes ho hl htarget
  exact ⟨t, target, ht, hc, htarget⟩

/-! ### The faults of the operation (R43, R46, R85, R111) -/

theorem wordAligned_iff (a : Word) : wordAligned a = true ↔ a.toNat % 4 = 0 := by
  simp [wordAligned, ← BitVec.toNat_inj]

theorem checkRange_of_misaligned {base : Word} {registers : BitVec 16}
    (h : (startAddress base registers).toNat % 4 ≠ 0) :
    checkRange base registers = .error (.dataAbort .alignment (startAddress base registers)) :=
  if_neg fun ha => h ((wordAligned_iff _).1 ha)

theorem checkRange_of_wraps {base : Word} {registers : BitVec 16} (h : (startAddress base registers).toNat % 4 = 0)
    (hpos : 0 < base.toNat) (hlt : base.toNat < 4 * bitCount registers) :
    checkRange base registers = .error (.addressWrap base) := by
  rw [checkRange, if_pos ((wordAligned_iff _).2 h), if_pos ⟨hpos, hlt⟩]

section
variable {i : Instr} {s : State} {n : Fin 15} {f : Fault} (ho : Operates i s n)
include ho

theorem exec_of_checkRange_error (h : checkRange (s.getX n) (decodedOf i s).registers = .error f) :
    exec i s = .fault f := by
  rw [exec_of_operates ho, State.loadMultiple, h]
  rfl

theorem exec_of_loop_error (hc : checkRange (s.getX n) (decodedOf i s).registers = .ok ())
    (h : s.loadListed (decodedOf i s).registers loopRegs (startAddress (s.getX n) (decodedOf i s).registers)
      = .error f) : exec i s = .fault f := by
  rw [exec_of_operates ho, State.loadMultiple, hc, h]
  rfl

/-- The new PC is looked for after all other words are read. -/
theorem exec_of_pcAfter_error (hc : checkRange (s.getX n) (decodedOf i s).registers = .ok ())
    (hr : ∀ k, k < listedBelow (decodedOf i s).registers 15 →
      ∃ v, s.memRead (startAddress (s.getX n) (decodedOf i s).registers + BitVec.ofNat 32 (4 * k)) = .ok v)
    (h : s.pcAfter (decodedOf i s).registers (wordAddress s n (decodedOf i s).registers 15) = .error f) :
    exec i s = .fault f := by
  obtain ⟨loads, hl⟩ := loadListed_loopRegs_of_reads hr
  rw [exec_of_operates ho, State.loadMultiple, hc, hl]
  simp only [bind, Except.bind, h]
  rfl

end

/-! ### The instructions complete (R82, R83, R86, R87) -/

theorem baseReg_of_toNat {rn : BitVec 4} {n : Fin 15} (h : rn.toNat = n.val) : baseReg rn = some n :=
  (dif_pos (h ▸ n.isLt)).trans (congrArg some (Fin.ext h))

/-- A base field that names a general register is not the PC. -/
theorem ne_pc_of_baseReg {rn : BitVec 4} {n : Fin 15} (h : baseReg rn = some n) : rn ≠ 0b1111#4 := by
  rintro rfl
  cases h

/-- R82's hypotheses are what A1's Decode asks for. -/
theorem operates_ldmdbA1 {cond : BitVec 4} {w : Bool} {rn : BitVec 4} {l : BitVec 16} {s : State} {n : Fin 15}
    (hn : rn.toNat = n.val) (hl : l ≠ 0#16) (hw : ¬(w = true ∧ l.getLsbD n.val = true))
    (hp : s.conditionPassed cond = true) : Operates (.ldmdbA1 cond w rn l) s n := by
  have hb := baseReg_of_toNat hn
  exact ⟨hb, (casesA1_eq_nil_iff rn l w).2 ⟨ne_pc_of_baseReg hb, hl, hn ▸ hw⟩, hp⟩

/-- R83's hypotheses are what T1's Decode asks for. -/
theorem operates_ldmdbT1 {w : Bool} {rn : BitVec 4} {p m : Bool} {l : BitVec 14} {s : State} {n : Fin 15}
    (hn : rn.toNat = n.val) (hk : 2 ≤ bitCount (listT1 p m l)) (hpm : ¬(p = true ∧ m = true))
    (hw : ¬(w = true ∧ (listT1 p m l).getLsbD n.val = true)) (h13 : l.getLsbD 13 = false)
    (hit : ¬(p = true ∧ s.inITBlock = true ∧ s.lastInITBlock = false))
    (hp : s.conditionPassed s.itCond = true) : Operates (.ldmdbT1 w rn p m l) s n := by
  have hb := baseReg_of_toNat hn
  obtain ⟨-, -, -, hcases⟩ := t1DecodeOperandsAndCases (.ldmdbT1 w rn p m l) w rn p m l s (.inl rfl)
  exact ⟨hb, hcases.2 ⟨ne_pc_of_baseReg hb, hk, hpm, hn ▸ hw, h13, hit⟩, hp⟩

/-- Settles O18: R82's hypotheses reach the operation, which completes. -/
theorem a1LoadsListedRegisters : Obligations.A1LoadsListedRegisters := by
  intro cond w rn l s n hn hl hw hp hready hpc
  obtain ⟨t, target, ht, hc, -⟩ := exec_of_ready (operates_ldmdbA1 hn hl hw hp) hready hpc
  exact ⟨t, ht, ht, hc.listed, hc.base, hc.unlisted⟩

/-- Settles O19: R83's hypotheses reach the operation, which completes. -/
theorem t1LoadsListedRegisters : Obligations.T1LoadsListedRegisters := by
  intro w rn p m l s n hn hk hpm hw h13 hit hp hready hpc
  obtain ⟨t, target, ht, hc, -⟩ := exec_of_ready (operates_ldmdbT1 hn hk hpm hw h13 hit hp) hready hpc
  exact ⟨t, ht, ht, hc.listed, hc.base, hc.unlisted⟩

/-- Settles O21: the two range checks in their order, and the words of a completed instruction. -/
theorem addressComputation : Obligations.AddressComputation := by
  rintro i s n start ho rfl
  refine ⟨fun h => exec_of_checkRange_error ho (checkRange_of_misaligned h),
    fun h hpos hlt => exec_of_checkRange_error ho (checkRange_of_wraps h hpos hlt),
    startAddress_add_last _ (Nat.sub_add_cancel (ho.bitCount_pos)).symm, fun hl hp => ?_⟩
  obtain ⟨t, target, ht, hc, -⟩ := exec_of_ready ho hl hp
  exact ⟨t, ht, hc.listed⟩

/-- The step ends with the fault of the first word that cannot be read, be it a general register's or the PC's. -/
theorem exec_of_first_fault {i : Instr} {s : State} {n : Fin 15} {j : Nat} {f : Fault} (ho : Operates i s n)
    (hc : checkRange (s.getX n) (decodedOf i s).registers = .ok ()) (hj : j < bitCount (decodedOf i s).registers)
    (hlow : ∀ k, k < j →
      ∃ v, s.memRead (startAddress (s.getX n) (decodedOf i s).registers + BitVec.ofNat 32 (4 * k)) = .ok v)
    (hf : s.memRead (startAddress (s.getX n) (decodedOf i s).registers + BitVec.ofNat 32 (4 * j)) = .error f) :
    exec i s = .fault f := by
  rw [bitCount_eq] at hj
  by_cases hloop : j < listedBelow (decodedOf i s).registers 15
  · rw [← length_listedRegs] at hloop
    exact exec_of_loop_error ho hc (loadListed_of_first_fault loopRegs _ j hloop hlow hf)
  · split at hj
    next h15 =>
      obtain rfl : j = listedBelow (decodedOf i s).registers 15 := by omega
      refine exec_of_pcAfter_error ho hc hlow ?_
      rw [State.pcAfter, if_pos h15, wordAddress, hf]
      rfl
    next => omega

/-- Settles O22: the completed loads, and the first word that cannot be read. -/
theorem loadsInRegisterOrder : Obligations.LoadsInRegisterOrder := by
  refine fun i s n ho => ⟨fun hl hp => ?_, fun j f ha hw hj hlow hf => ?_⟩
  · obtain ⟨t, target, ht, hc, -⟩ := exec_of_ready ho hl hp
    exact ⟨t, ht, hc.listed, hc.unlisted⟩
  · exact ⟨exec_of_first_fault ho (checkRange_of_ready ha hw) hj (fun k hk => memRead_of_reads (hlow k hk)) hf,
      memRead_error hf⟩

/-- Settles O23: a written-back base is not listed, and has the start address. -/
theorem writebackGivesLowestAddress : Obligations.WritebackGivesLowestAddress := by
  intro i s n ho hl hp
  obtain ⟨t, target, ht, hc, -⟩ := exec_of_ready ho hl hp
  refine ⟨t, ht, fun hw => ⟨ho.base_unlisted hw, hc.base hw⟩, fun hw => ?_⟩
  split
  next hb => exact hc.listed n hb
  next hb => exact hc.unlisted n (by simpa using hb) (by simp [hw])

/-- The outcome of a load of the PC follows the branch of its word. -/
theorem exec_of_branch {i : Instr} {s : State} {n : Fin 15} {v : Word} {target : Word × ISet}
    (ho : Operates i s n) (h15 : (decodedOf i s).registers.getLsbD 15 = true)
    (hl : LoadsReady s n (decodedOf i s).registers) (hv : s.memRead (s.getX n - 4#32) = .ok v)
    (hb : branchTarget s.params.forceAlignPc v = .ok target) :
    ∃ t, exec i s = .next t ∧ t.t = target.2 ∧ t.pc = target.1 := by
  obtain ⟨t, ht, hc⟩ := exec_completes ho hl
    ((pcAfter_of_listed h15 ((wordAddress_pc h15).symm ▸ hv)).trans hb)
  exact ⟨t, ht, hc.t, hc.pc⟩

theorem exec_of_branch_error {i : Instr} {s : State} {n : Fin 15} {v : Word} {f : Fault}
    (ho : Operates i s n) (h15 : (decodedOf i s).registers.getLsbD 15 = true)
    (hl : LoadsReady s n (decodedOf i s).registers) (hv : s.memRead (s.getX n - 4#32) = .ok v)
    (hb : branchTarget s.params.forceAlignPc v = .error f) : exec i s = .fault f :=
  exec_of_pcAfter_error ho hl.checkRange (fun _ hk => hl.memRead (hk.trans_le (listedBelow_mono _ (by decide))))
    ((pcAfter_of_listed h15 ((wordAddress_pc h15).symm ▸ hv)).trans hb)

/-- Settles O24: the five ways an interworking branch can go. -/
theorem loadedPcBranches : Obligations.LoadedPcBranches := by
  refine fun i s n v ho h15 hl hv =>
    ⟨fun h => exec_of_branch ho h15 hl hv (branchTarget_of_bit0 h),
      fun h => exec_of_branch ho h15 hl hv (branchTarget_of_low00 h), fun h hfa => ?_, fun h hfa => ?_,
      fun h hfa => ?_⟩ <;> obtain ⟨hnone, htrue, hfalse⟩ := branchTarget_of_low10 h
  · exact exec_of_branch_error ho h15 hl hv (hfa ▸ hnone)
  · exact exec_of_branch ho h15 hl hv (hfa ▸ htrue)
  · exact exec_of_branch ho h15 hl hv (hfa ▸ hfalse)

/-- Settles O28: with both listed, R14's word is the last but one and the PC's the last. -/
theorem a1LoadsLrAndPcTogether : Obligations.A1LoadsLrAndPcTogether := by
  intro cond w rn l s n hn htop hw hp hl hready
  have h14 : l.getLsbD 14 = true := by simpa using congrArg (BitVec.getLsbD · 0) htop
  have h15 : l.getLsbD 15 = true := by simpa using congrArg (BitVec.getLsbD · 1) htop
  have hne : l ≠ 0#16 := by
    rintro rfl
    simp at h14
  obtain ⟨t, target, ht, hc, hpc⟩ := exec_of_ready (operates_ldmdbA1 hn hne hw hp) hl hready
  obtain ⟨v, hv⟩ := hl.memRead_wordAddress (by decide) h15
  have hlr : wordAddress s n l 14 = s.getX n - 8#32 := by
    have hnext : wordAddress s n l 15 = wordAddress s n l 14 + 4#32 :=
      (wordAddressesEndJustBelowBase s n l 14 (by decide) h14).2.1 15 (by decide) (by decide) h15
        fun j hlo hhi => by omega
    rw [wordAddress_pc h15] at hnext
    rw [eq_sub_of_add_eq hnext.symm, sub_sub]
    rfl
  refine ⟨t, v, ht, ht, hlr ▸ hc.listed 14 h14, wordAddress_pc h15 ▸ hv, ?_⟩
  rw [hc.pc, hc.t, ← pcAfter_of_listed h15 hv]
  exact hpc

theorem cases_of_a32 {i : Instr} (h : i.iset = .a32) (s : State) : (decodedOf i s).cases
    = casesA1 (decodedOf i s).rn (decodedOf i s).registers (decodedOf i s).wback := by
  cases i with
  | ldmdbA1 | ldmeaA1 => rfl
  | ldmdbT1 | ldmeaT1 => cases h

theorem cases_of_t32 {i : Instr} (h : i.iset = .t32) (s : State) : (decodedOf i s).cases
    = casesT1 (decodedOf i s).rn (decodedOf i s).registers (decodedOf i s).wback s.midITBlock := by
  cases i with
  | ldmdbA1 | ldmeaA1 => cases h
  | ldmdbT1 | ldmeaT1 => rfl

/-- Settles O29: without writeback a listed base is an ordinary listed register. -/
theorem listedBaseWithoutWriteback : Obligations.ListedBaseWithoutWriteback := by
  intro i s n hn hb hw
  refine ⟨fun hmem => ?_, fun hi => ?_, fun ho hl hp => ?_⟩
  · rw [writebackBaseInList_mem_cases_iff, hw] at hmem
    cases hmem.1
  · rw [cases_of_a32 hi, casesA1_eq_nil_iff]
    refine ⟨ne_pc_of_baseReg hn, fun h0 => ?_, fun h => ?_⟩
    · rw [h0, BitVec.getLsbD_zero] at hb
      cases hb
    · rw [hw] at h
      cases h.1
  · obtain ⟨t, target, ht, hc, -⟩ := exec_of_ready ho hl hp
    exact ⟨t, ht, hc.listed n hb, hc.listed⟩

/-! ### The second spelling (R99, R100) -/

/-- Settles O30: LDMEA A1 is given the encoding, the Decode and the meaning of LDMDB A1. -/
theorem ldmeaA1IsLdmdbA1 : Obligations.LdmeaA1IsLdmdbA1 :=
  ⟨fun _ _ _ _ _ => ⟨rfl, rfl, rfl⟩, by decide⟩

/-- Settles O31: LDMEA T1 is given the encoding, the Decode and the meaning of LDMDB T1. -/
theorem ldmeaT1IsLdmdbT1 : Obligations.LdmeaT1IsLdmdbT1 :=
  ⟨fun _ _ _ _ _ _ => ⟨rfl, rfl, rfl⟩, by decide⟩

/-! ### What an UNPREDICTABLE case answers (R14, R91 to R98) -/

@[simp] theorem decodedOf_bits (i : Instr) (s : State) : (decodedOf i s).bits = encode i := by cases i <;> rfl

theorem mem_permitted_of_chosen {s : State} {c : UnpredCase} {b : Behaviour} (h : s.chosen c = some b) :
    b ∈ permitted c := by
  unfold State.chosen at h
  split at h
  next => cases h
  next => exact List.mem_of_getElem? h

theorem chosen_of_fault {s : State} {c : UnpredCase} (h : policySetting s.params.cuPolicy c = .fault) :
    s.chosen c = none := by
  rw [State.chosen, h]

/-- The first case is the fault where another one follows, the base is the PC, or the policy says fault. -/
theorem exec_unpredictable {i : Instr} {s : State} {c : UnpredCase} {cs : List UnpredCase}
    (hc : (decodedOf i s).cases = c :: cs)
    (h : cs ≠ [] ∨ baseReg (decodedOf i s).rn = none ∨ policySetting s.params.cuPolicy c = .fault) :
    exec i s = .fault (.unpredictable c (encode i)) := by
  rw [exec_eq, execDecoded, hc, ← decodedOf_bits i s]
  cases hn : baseReg (decodedOf i s).rn with
  | none => rfl
  | some n =>
    cases cs with
    | cons c' cs => rfl
    | nil =>
      have hpolicy : policySetting s.params.cuPolicy c = .fault := by simpa [hn] using h
      dsimp only
      rw [State.execCase, chosen_of_fault hpolicy]
      rfl

/-- BaseIsPC is the first of all cases (R98). -/
theorem cases_of_base_pc {i : Instr} {s : State} (h : (decodedOf i s).rn = 0b1111#4) :
    ∃ cs, (decodedOf i s).cases = .baseIsPC :: cs := by
  cases hi : i.iset with
  | a32 =>
    rw [cases_of_a32 hi, casesA1, if_pos h]
    exact ⟨_, rfl⟩
  | t32 =>
    rw [cases_of_t32 hi, casesT1, if_pos h]
    exact ⟨_, rfl⟩

/-- Settles O42: BaseIsPC is first, and no setting of CU_POLICY admits it. -/
theorem baseIsPcAlwaysFaults : Obligations.BaseIsPcAlwaysFaults := by
  intro i s h
  obtain ⟨cs, hcs⟩ := cases_of_base_pc h
  exact exec_unpredictable hcs (.inr (.inr rfl))

/-- Settles O43: the case is among those that hold, and alone it is not admitted. -/
theorem pcLoadInsideItBlockFaults : Obligations.PcLoadInsideItBlockFaults := by
  intro i s hi h15 hin hlast
  have hmem : UnpredCase.pcLoadInsideITBlock ∈ (decodedOf i s).cases := by
    by_contra hnot
    have hmid := midITBlock_of_cases hi h15 hnot
    rw [(midITBlock_iff s).2 ⟨hin, hlast⟩] at hmid
    cases hmid
  obtain ⟨c, cs, hc⟩ := List.exists_cons_of_ne_nil (List.ne_nil_of_mem hmem)
  have halone : cs = [] → c = .pcLoadInsideITBlock := by
    rintro rfl
    rw [hc] at hmem
    exact (List.mem_singleton.1 hmem).symm
  refine ⟨c, by rw [hc]; rfl, exec_unpredictable hc ?_, fun h => halone ?_⟩
  · by_cases hcs : cs = []
    · exact .inr (.inr (halone hcs ▸ rfl))
    · exact .inl hcs
  · rw [hc] at h
    exact (List.cons.inj h).2

/-! ### The flags and `T` (R103) -/

/-- Where all loads with R13 UNKNOWN are made, they are those of listing L84 (R96). -/
theorem perform_r13Unknown (s : State) (d : Decoded) (n : Fin 15) :
    s.perform d n .r13Unknown = (s.loadMultiple n d.registers d.wback (Config.unknownWord s.draws)).map
      (fun v => v.setX 13 (Config.unknownWord s.draws)) := by
  rw [State.perform]
  cases s.loadMultiple n d.registers d.wback (Config.unknownWord s.draws) <;> rfl

theorem exceptMap_ok {f : State → State} {r : Except Fault State} {t : State} (h : r.map f = .ok t) :
    ∃ u, r = .ok u ∧ t = f u := by
  cases r with
  | error _ => cases h
  | ok u => exact ⟨u, rfl, (Except.ok.inj h).symm⟩

/-- Without the PC in its list, listing L84 leaves `T`. -/
theorem loadMultiple_t {s t : State} {n : Fin 15} {registers : BitVec 16} {wback : Bool} {u : Word}
    (h : s.loadMultiple n registers wback u = .ok t) (h15 : registers.getLsbD 15 = false) : t.t = s.t :=
  t_of_pcAfter (loadMultiple_pcAfter h) h15

/-- The behaviours whose loads are those of the decoded list leave `T` if that list is without the PC. -/
theorem perform_t {s t : State} {d : Decoded} {n : Fin 15} {b : Behaviour} (h : s.perform d n b = .ok t)
    (h15 : d.registers.getLsbD 15 = false) :
    t.t = s.t ∨ b = .unspecifiedSet ∨ b = .unspecifiedSetAndBase ∨ b = .lrAndPcDrawn := by
  cases b with
  | undef => cases h
  | nop =>
    obtain ⟨-, rfl⟩ := advance_ok h
    exact .inl rfl
  | singleRegister => exact .inl (loadMultiple_t h h15)
  | baseUnknown => exact .inl (loadMultiple_t h h15)
  | r13Unknown =>
    rw [perform_r13Unknown] at h
    obtain ⟨u, hu, rfl⟩ := exceptMap_ok h
    have hkeep := loadMultiple_t hu h15
    exact .inl hkeep
  | unspecifiedSet => simp
  | unspecifiedSetAndBase => simp
  | lrAndPcDrawn => simp

/-- What an UNPREDICTABLE instruction that completes has done: nothing but the advance, or one of the behaviours listed
for its case. -/
theorem execCase_ok {s u : State} {d : Decoded} {n : Fin 15} {c : UnpredCase} (h : s.execCase d n c = .ok u) :
    ∃ v, u = v.drawn ∧ (s.advance = .ok v ∨ ∃ b ∈ permitted c, s.perform d n b = .ok v) := by
  unfold State.execCase at h
  split at h
  next => cases h
  next => cases h
  next b hne hb =>
    obtain ⟨v, hv, rfl⟩ := exceptMap_ok h
    refine ⟨v, rfl, ?_⟩
    split at hv
    next => exact .inr ⟨b, mem_permitted_of_chosen hb, hv⟩
    next => exact .inl hv

/-- `T` changes only by a load of the PC (R103). -/
theorem exec_t {i : Instr} {s t : State} (h : exec i s = .next t) (ht : t.t ≠ s.t) :
    (decodedOf i s).registers.getLsbD 15 = true ∨ (decodedOf i s).cases = [.emptyList] ∨
      (decodedOf i s).cases = [.singleRegisterT1] := by
  by_contra hno
  simp only [not_or, Bool.not_eq_true] at hno
  obtain ⟨h15, hempty, hsingle⟩ := hno
  obtain ⟨n, u, -, rfl, ⟨hc, hu⟩ | ⟨c, hc, hu⟩⟩ := exec_next h <;> rw [State.afterInstr_t] at ht
  · obtain ⟨v, target, -, rfl, htarget⟩ := execDefined_sameButX hu
    rw [(htarget ht).1] at h15
    cases h15
  · obtain ⟨v, rfl, hadv | ⟨b, hb, hperform⟩⟩ := execCase_ok hu
    · obtain ⟨-, rfl⟩ := advance_ok hadv
      exact ht rfl
    · obtain hkeep | rfl | rfl | rfl := perform_t hperform h15
      · exact ht hkeep
      · have : c = .singleRegisterT1 := by cases c <;> simp [permitted] at hb ⊢
        exact hsingle (this ▸ hc)
      · have : c = .emptyList := by cases c <;> simp [permitted] at hb ⊢
        exact hempty (this ▸ hc)
      · have : c = .lrAndPcT1 := by cases c <;> simp [permitted] at hb ⊢
        obtain ⟨-, hpc⟩ := pc_listed_of_lrAndPc (i := i) (s := s) (by simp [hc, this])
        rw [hpc] at h15
        cases h15

/-- Settles O32: the fields no execution writes, the IT advance, and the loads of the PC. -/
theorem flagsAreNeverWritten : Obligations.FlagsAreNeverWritten := by
  intro i s t h
  obtain ⟨u, hu, hleaves⟩ := exec_leaves h
  obtain ⟨hN, hZ, hC, hV, hdit, -, -⟩ := (hleaves.same.trans (hu ▸ sameMachine_afterInstr u _)).fields
  refine ⟨hN, hZ, hC, hV, hdit, fun ha => ?_, fun ht hkeep => ?_, exec_t h, fun hne hc => ?_⟩
  · rw [hu, ha, State.afterInstr_a32]
    rcases hleaves.itstate with hit | ⟨hd, -⟩
    · exact hit
    · rw [decodedOf_iset, ha] at hd
      cases hd
  · rcases hkeep with hstay | hc
    · rw [hu, State.afterInstr_t] at hstay
      rw [hu, ht, State.afterInstr_itstate_t32]
      rcases hleaves.itstate with hit | ⟨-, hs, hu', -⟩
      · rw [hit]
      · exact absurd ⟨hs, hu'⟩ hstay
    · rw [exec_defined_itstate h hc, ht, State.afterInstr_itstate_t32]
  · obtain ⟨-, hpc, -⟩ := definedInstructionFrame i s t hc h
    exact hpc hne

/-! ### What CU_POLICY admits (R92 to R96) -/

theorem chosen_of_allow {s : State} {c : UnpredCase} (h : policySetting s.params.cuPolicy c = .allow) :
    ∃ b ∈ permitted c, s.chosen c = some b := by
  have hpos : 0 < (permitted c).length := by
    cases c with
    | baseIsPC | pcLoadInsideITBlock => cases h
    | emptyList | singleRegisterT1 | lrAndPcT1 | writebackBaseInList | r13InListT1 => simp [permitted]
  have hlt := Nat.mod_lt (Config.cuChoice s.draws) hpos
  refine ⟨_, List.getElem_mem hlt, ?_⟩
  rw [State.chosen, h]
  exact List.getElem?_eq_getElem hlt

/-- The behaviours of a case that load are those listed after UNDEF and NOP. -/
theorem mem_drop_permitted {c : UnpredCase} {b : Behaviour} (h : b ∈ permitted c) :
    b = .undef ∨ b = .nop ∨ b ∈ (permitted c).drop 2 := by
  cases c with
  | baseIsPC | pcLoadInsideITBlock => cases h
  | emptyList | singleRegisterT1 | lrAndPcT1 | writebackBaseInList | r13InListT1 => simpa [permitted] using h

theorem execCase_of_chosen {s : State} {c : UnpredCase} {b : Behaviour} (d : Decoded) (n : Fin 15)
    (h : s.chosen c = some b) (hb : b ≠ .undef) :
    s.execCase d n c = (if s.conditionPassed d.cond then s.perform d n b else s.advance).map State.drawn := by
  rw [State.execCase, h]
  cases b with
  | undef => exact absurd rfl hb
  | _ => rfl

/-- The one case that holds, admitted: undefined, only the advance, or (if the condition passes) one of the loads listed
for the case. -/
theorem exec_admitted {i : Instr} {s : State} {n : Fin 15} {c : UnpredCase}
    (hn : baseReg (decodedOf i s).rn = some n) (hc : (decodedOf i s).cases = [c])
    (ha : policySetting s.params.cuPolicy c = .allow) :
    exec i s = .fault (.undefinedInstruction (encode i)) ∨
    exec i s = finish i.iset (s.advance.map State.drawn) ∨
    (s.conditionPassed (decodedOf i s).cond = true ∧ ∃ b ∈ (permitted c).drop 2,
      exec i s = finish i.iset ((s.perform (decodedOf i s) n b).map State.drawn)) := by
  have hx : exec i s = finish i.iset (s.execCase (decodedOf i s) n c) := by
    rw [exec_eq, execDecoded, hn, hc, decodedOf_iset]
  obtain ⟨b, hb, hchosen⟩ := chosen_of_allow ha
  by_cases hu : b = .undef
  · rw [hx, State.execCase, hchosen, hu, ← decodedOf_bits i s]
    exact .inl rfl
  rw [hx, execCase_of_chosen _ _ hchosen hu]
  by_cases hp : s.conditionPassed (decodedOf i s).cond = true
  · rw [if_pos hp]
    obtain rfl | rfl | hload := mem_drop_permitted hb
    · exact absurd rfl hu
    · exact .inr (.inl rfl)
    · exact .inr (.inr ⟨hp, b, hload, rfl⟩)
  · rw [if_neg hp]
    exact .inr (.inl rfl)

theorem exceptMap_exceptMap (f g : State → State) (r : Except Fault State) : (r.map f).map g = r.map (fun v => g (f v)) := by
  cases r <;> rfl

/-- The next state of an admitted load is the one its operation answers, with the draw counted and `ITSTATE` advanced. -/
theorem finish_drawn_next {r : Except Fault State} {ti : ISet} {t : State}
    (h : finish ti (r.map State.drawn) = .next t) : ∃ u, r = .ok u ∧ t = u.drawn.afterInstr ti := by
  obtain ⟨v, hv, rfl⟩ := finish_next h
  obtain ⟨u, hu, rfl⟩ := exceptMap_ok hv
  exact ⟨u, hu, rfl⟩

/-- Settles O44: listing L84 with the UNKNOWN word for the listed base. -/
theorem admittedWritebackBaseInList : Obligations.AdmittedWritebackBaseInList := by
  intro i s n hn hc ha
  refine (exec_admitted hn hc ha).imp_right (Or.imp_right ?_)
  rintro ⟨hp, b, hb, hx⟩
  obtain ⟨hw, hbase⟩ := (writebackBaseInList_mem_cases_iff i s).1 (hc ▸ List.mem_singleton_self _)
  rw [← val_of_baseReg hn] at hbase
  obtain rfl : b = .baseUnknown := List.mem_singleton.1 hb
  rw [State.perform, hw] at hx
  refine ⟨hp, _, hx, fun t ht => ?_⟩
  obtain ⟨u, hu, rfl⟩ := finish_drawn_next (hx ▸ ht)
  refine ⟨by simpa [hbase] using loadMultiple_getX hu n, fun j hj => ?_⟩
  simpa [hj] using loadMultiple_getX hu j

/-- Settles O45: listing L84, after which R13 has the UNKNOWN word. A written-back base is not listed. -/
theorem admittedR13InList : Obligations.AdmittedR13InList := by
  intro i s n hn hc ha
  refine (exec_admitted hn hc ha).imp_right (Or.imp_right ?_)
  rintro ⟨hp, b, hb, hx⟩
  have hbase := base_unlisted_of_wback hn (by simp [hc])
  obtain rfl : b = .r13Unknown := List.mem_singleton.1 hb
  rw [perform_r13Unknown, exceptMap_exceptMap] at hx
  refine ⟨hp, _, hx, fun t ht => ?_⟩
  obtain ⟨v, hv, rfl⟩ := finish_next (hx ▸ ht)
  obtain ⟨u, hu, rfl⟩ := exceptMap_ok hv
  refine ⟨by simp, fun j hj => ?_⟩
  have hxj := loadMultiple_getX hu j
  simp only [State.afterInstr_getX, State.drawn_getX, State.getX_setX_of_ne _ _ hj]
  by_cases hwn : (decodedOf i s).wback = true ∧ j = n
  · obtain ⟨hw, rfl⟩ := hwn
    simpa [hw, hbase hw] using hxj
  · simpa [hwn] using hxj

/-- Where the new PC is: at the target of the branch of the word just below the base, or 4 on (R25, R88). -/
theorem pc_of_pcAfter {s : State} {registers : BitVec 16} {a : Word} {target : Word × ISet}
    (h : s.pcAfter registers a = .ok target) :
    if registers.getLsbD 15 = true
      then ∃ v, s.memRead a = .ok v ∧ branchTarget s.params.forceAlignPc v = .ok target
      else target.1 = s.pc + 4#32 ∧ target.2 = s.t := by
  have hp := pcAfter_ok h
  split at hp
  next h15 =>
    rw [if_pos h15]
    exact hp
  next h15 =>
    obtain ⟨-, rfl⟩ := nextPc_ok hp
    rw [if_neg h15]
    exact ⟨rfl, rfl⟩

theorem loadMultiple_pc {s t : State} {n : Fin 15} {registers : BitVec 16} {wback : Bool} {u : Word}
    (h : s.loadMultiple n registers wback u = .ok t) :
    if registers.getLsbD 15 = true
      then ∃ v, s.memRead (s.getX n - 4#32) = .ok v ∧ branchTarget s.params.forceAlignPc v = .ok (t.pc, t.t)
      else t.pc = s.pc + 4#32 ∧ t.t = s.t := by
  have hp := pc_of_pcAfter (loadMultiple_pcAfter h)
  split at hp
  next h15 =>
    rw [if_pos h15, ← wordAddress_pc h15]
    exact hp
  next h15 =>
    rw [if_neg h15]
    exact hp

/-- The base after the third behaviour of R93: a drawn number of words below where it was. -/
def State.moveBase (s : State) (d : Decoded) (n : Fin 15) (words : Nat) (after : State) : State :=
  if d.wback then after.setX n (s.getX n - BitVec.ofNat 32 (4 * words)) else after

theorem loadSetAndBase_eq (s : State) (d : Decoded) (n : Fin 15) (set : BitVec 16) (words : Nat) :
    s.loadSetAndBase d n set words
      = (s.loadMultiple n set false 0#32).map fun v => s.moveBase d n words (v.itAfterBranch d.iset s.t) := by
  rw [State.loadSetAndBase, State.loadSet]
  cases s.loadMultiple n set false 0#32 <;> rfl

@[simp] theorem State.moveBase_pc (s after : State) (d n words) : (s.moveBase d n words after).pc = after.pc := by
  unfold State.moveBase; split <;> rfl
@[simp] theorem State.moveBase_t (s after : State) (d n words) : (s.moveBase d n words after).t = after.t := by
  unfold State.moveBase; split <;> rfl

theorem State.getX_moveBase (s after : State) (d : Decoded) (n j : Fin 15) (words : Nat) :
    (s.moveBase d n words after).getX j =
      if d.wback = true ∧ j = n then s.getX n - BitVec.ofNat 32 (4 * words) else after.getX j := by
  unfold State.moveBase
  cases d.wback with
  | false => simp
  | true =>
    by_cases hj : j = n
    · simp [hj]
    · simp [hj, State.getX_setX_of_ne]

/-- Settles O46: listing L84 for the drawn set without its writeback, and the drawn base. -/
theorem admittedEmptyList : Obligations.AdmittedEmptyList := by
  intro i s n hn hc ha
  refine (exec_admitted hn hc ha).imp_right (Or.imp_right ?_)
  rintro ⟨hp, b, hb, hx⟩
  obtain rfl : b = .unspecifiedSetAndBase := List.mem_singleton.1 hb
  refine ⟨hp, Config.unspecifiedSet s.draws, _, Nat.le_of_lt_succ (Config.writebackWords s.draws).isLt, hx,
    fun t ht => ?_⟩
  obtain ⟨u, hu, rfl⟩ := finish_drawn_next (hx ▸ ht)
  rw [State.perform, loadSetAndBase_eq] at hu
  obtain ⟨v, hv, rfl⟩ := exceptMap_ok hu
  refine ⟨by simpa using loadMultiple_pc hv, fun j => ?_⟩
  simp only [State.afterInstr_getX, State.drawn_getX, State.getX_moveBase, State.itAfterBranch_getX]
  have hvj := loadMultiple_getX hv j
  split
  next => rfl
  next => simpa using hvj

/-- Where the advance clears `ITSTATE` in any case, a branch to A32 changes nothing of the end of the instruction. -/
theorem afterInstr_itAfterBranch {u : State} {ti before : ISet}
    (h : ti = .t32 → before = .t32 → u.t = .a32 → itAdvance u.itstate = 0#8) :
    (u.itAfterBranch ti before).drawn.afterInstr ti = u.drawn.afterInstr ti := by
  unfold State.itAfterBranch
  split
  next hb =>
    obtain ⟨rfl, rfl, hu⟩ := hb
    simp only [State.afterInstr, State.drawn, itAdvance_zero, h rfl rfl hu]
  next => rfl

/-- Outside the middle of an IT block, the advance of a T32 state clears `ITSTATE` (R31). -/
theorem itAdvance_of_midITBlock {s : State} (ht : s.t = .t32) (h : s.midITBlock = false) :
    itAdvance s.itstate = 0#8 := by
  apply itAdvance_of_not_mid
  simpa [State.midITBlock, State.inITBlock, State.lastInITBlock, ht, or_iff_not_imp_left] using h

/-- A single register is one of the sets of R94: a load of the PC that is not in the middle of an IT block leaves
`ITSTATE` as the branch of a set does. -/
theorem finish_singleRegister {i : Instr} {s : State} (n : Fin 15)
    (hc : UnpredCase.pcLoadInsideITBlock ∉ (decodedOf i s).cases) (wback : Bool) (u : Word) :
    finish i.iset ((s.loadMultiple n (decodedOf i s).registers wback u).map State.drawn)
      = finish i.iset ((s.loadSet (decodedOf i s) n (decodedOf i s).registers wback u).map State.drawn) := by
  rw [State.loadSet, exceptMap_exceptMap]
  cases hv : s.loadMultiple n (decodedOf i s).registers wback u with
  | error f => rfl
  | ok v =>
    have hit : v.itstate = s.itstate := by
      obtain ⟨w, target, hw, rfl, -⟩ := loadMultiple_sameButX hv
      obtain ⟨-, -, -, -, -, -, hit, -⟩ := hw.fields
      exact hit
    have hclear : i.iset = .t32 → s.t = .t32 → v.t = .a32 → itAdvance v.itstate = 0#8 := by
      intro hi hs hvt
      have h15 : (decodedOf i s).registers.getLsbD 15 = true := by
        by_contra hb
        rw [loadMultiple_t hv (by simpa using hb), hs] at hvt
        cases hvt
      rw [hit]
      exact itAdvance_of_midITBlock hs (midITBlock_of_cases hi h15 hc)
    rw [decodedOf_iset]
    exact congrArg Host.Outcome.next (afterInstr_itAfterBranch hclear).symm

/-- Settles O47: the listed register alone and the unspecified set are both sets. -/
theorem admittedSingleRegister : Obligations.AdmittedSingleRegister := by
  intro i s n hn hc ha
  refine (exec_admitted hn hc ha).imp_right (Or.imp_right ?_)
  rintro ⟨hp, b, hb, hx⟩
  obtain ⟨set, u, hset⟩ : ∃ set u,
      exec i s = finish i.iset ((s.loadSet (decodedOf i s) n set (decodedOf i s).wback u).map State.drawn) := by
    obtain rfl | rfl : b = .singleRegister ∨ b = .unspecifiedSet := by simpa [permitted] using hb
    · exact ⟨_, _, hx.trans (finish_singleRegister n (by simp [hc]) _ _)⟩
    · exact ⟨_, _, hx⟩
  refine ⟨hp, set, u, hset, fun t ht => ?_⟩
  obtain ⟨v, hv, rfl⟩ := finish_drawn_next (hset ▸ ht)
  obtain ⟨w, hw, rfl⟩ := loadSet_ok hv
  exact ⟨by simpa using loadMultiple_pc hw, fun j => by simpa using loadMultiple_getX hw j⟩

/-! R95: the drawn addresses. -/

/-- Where the loop with drawn addresses answers, it loaded the listed registers, each from its own address. -/
theorem loadDrawn_ok {s : State} {registers : BitVec 16} {address : Nat → Word} {is : List (Fin 15)}
    {loads : List (Fin 15 × Word)} (h : s.loadDrawn registers address is = .ok loads) :
    loads.map Prod.fst = is.filter (fun i => registers.getLsbD i.val) ∧
      ∀ j v, (j, v) ∈ loads → s.memRead (address j.val) = .ok v := by
  induction is generalizing loads with
  | nil =>
    cases h
    exact ⟨rfl, fun j v hm => by cases hm⟩
  | cons i is ih =>
    unfold State.loadDrawn at h
    split at h
    next hi =>
      cases hv : s.memRead (address i.val) with
      | error f => rw [hv] at h; cases h
      | ok v =>
        cases hr : s.loadDrawn registers address is with
        | error f => rw [hv, hr] at h; cases h
        | ok rest =>
          rw [hv, hr] at h
          cases h
          obtain ⟨hregs, hwords⟩ := ih hr
          refine ⟨by simp [hregs, hi], fun j w hm => ?_⟩
          obtain heq | hm := List.mem_cons.1 hm
          · cases heq
            exact hv
          · exact hwords j w hm
    next hi =>
      obtain ⟨hregs, hwords⟩ := ih h
      exact ⟨by simp [hregs, hi], hwords⟩

/-- After the commit of a list's words, each listed register has its word and every other one is unchanged. -/
theorem getX_commit_of_words {s : State} {registers : BitVec 16} {address : Nat → Word}
    {loads : List (Fin 15 × Word)} (hregs : loads.map Prod.fst = listedRegs registers)
    (hwords : ∀ j v, (j, v) ∈ loads → s.memRead (address j.val) = .ok v) (j : Fin 15) :
    if registers.getLsbD j.val = true then s.memRead (address j.val) = .ok ((s.commit loads).getX j)
    else (s.commit loads).getX j = s.getX j := by
  split
  next hb =>
    have hmem : j ∈ loads.map Prod.fst := hregs ▸ mem_listedRegs.2 hb
    obtain ⟨⟨j, v⟩, hm, rfl⟩ := List.mem_map.1 hmem
    rw [getX_commit_of_mem loads s (hregs ▸ listedRegs_nodup registers) hm]
    exact hwords j v hm
  next hb => exact getX_commit_of_not_mem loads s j (hregs ▸ fun hm => hb (mem_listedRegs.1 hm))

theorem getX_writeback_self (s : State) (n : Fin 15) (registers : BitVec 16) (base : Word) :
    (s.writeback n registers true base base).getX n = base := by
  simp [State.writeback]

theorem getX_writeback_of_ne (s : State) {n j : Fin 15} {wback : Bool} (registers : BitVec 16) (start unknown : Word)
    (h : wback = true → j ≠ n) : (s.writeback n registers wback start unknown).getX j = s.getX j := by
  cases wback with
  | false => rfl
  | true => exact State.getX_setX_of_ne s _ (h rfl)

/-- What the third behaviour of R95 leaves where it answers. -/
theorem loadLrAndPc_ok {s t : State} {n : Fin 15} {set : BitVec 16} {wback : Bool} {address : Nat → Word}
    {base : Word} (h : s.loadLrAndPc n set wback address base = .ok t) :
    (wback = true → t.getX n = base) ∧ s.pcAfter set (address 15) = .ok (t.pc, t.t) ∧
      ∀ j : Fin 15, (wback = true → j ≠ n) →
        if set.getLsbD j.val = true then s.memRead (address j.val) = .ok (t.getX j) else t.getX j = s.getX j := by
  unfold State.loadLrAndPc at h
  cases hl : s.loadDrawn set address loopRegs with
  | error f => rw [hl] at h; cases h
  | ok loads =>
    cases hp : s.pcAfter set (address 15) with
    | error f => rw [hl, hp] at h; cases h
    | ok target =>
      rw [hl, hp] at h
      cases h
      obtain ⟨hregs, hwords⟩ := loadDrawn_ok hl
      refine ⟨?_, rfl, fun j hj => ?_⟩
      · rintro rfl
        exact getX_writeback_self ..
      · rw [State.setPc_getX, getX_writeback_of_ne _ _ _ _ hj]
        exact getX_commit_of_words hregs hwords j

/-- The list of R95's third behaviour, bit by bit. -/
theorem getLsbD_lrAndPcSet (registers : BitVec 16) (lr pc : Bool) (j : Nat) :
    (lrAndPcSet registers lr pc).getLsbD j =
      if j < 14 then registers.getLsbD j else if j = 14 then lr else if j = 15 then pc else false := by
  have h : lrAndPcSet registers lr pc = listT1 pc lr (registers.extractLsb' 0 14) := rfl
  rw [h, getLsbD_listT1]
  split
  next hj => simp [hj]
  next => rfl

theorem lrAndPcT1_mem_casesT1_iff (rn : BitVec 4) (registers : BitVec 16) (wback midIT : Bool) :
    UnpredCase.lrAndPcT1 ∈ casesT1 rn registers wback midIT ↔
      registers.getLsbD 15 = true ∧ registers.getLsbD 14 = true := by
  simp [casesT1]

/-- The case LRandPC_T1 is of T1 lists with LR in them. -/
theorem lr_listed_of_lrAndPc {i : Instr} {s : State} (h : UnpredCase.lrAndPcT1 ∈ (decodedOf i s).cases) :
    (decodedOf i s).registers.getLsbD 14 = true := by
  obtain ⟨hi, -⟩ := pc_listed_of_lrAndPc h
  rw [cases_of_t32 hi, lrAndPcT1_mem_casesT1_iff] at h
  exact h.2

/-- Settles O48: the words at the drawn addresses, and the drawn base. -/
theorem admittedLrAndPc : Obligations.AdmittedLrAndPc := by
  intro i s n hn hc ha
  refine (exec_admitted hn hc ha).imp_right (Or.imp_right ?_)
  rintro ⟨hp, b, hb, hx⟩
  have hlr := lr_listed_of_lrAndPc (i := i) (s := s) (hc ▸ List.mem_singleton_self _)
  obtain rfl : b = .lrAndPcDrawn := List.mem_singleton.1 hb
  refine ⟨hp, _, _, _, _, hx, fun t ht => ?_⟩
  obtain ⟨u, hu, rfl⟩ := finish_drawn_next (hx ▸ ht)
  obtain ⟨hbase, hpc, hregs⟩ := loadLrAndPc_ok hu
  have hpc := pc_of_pcAfter hpc
  rw [getLsbD_lrAndPcSet] at hpc
  refine ⟨by simpa using hbase, by simpa using hpc, fun j hj => ?_⟩
  have huj := hregs j hj
  rw [getLsbD_lrAndPcSet] at huj
  by_cases h14 : j = 14
  · subst h14
    simpa [hlr] using huj
  · have hlt : j.val < 14 := by omega
    simpa [h14, hlt] using huj

end Sys2Proof.Machine

namespace Sys2Proof.Machine

/-! ### The IT state after an instruction (R30, R31) -/

/-- The advance bit by bit: `ITSTATE[4:0]` shifts left by one (R31). -/
theorem getLsbD_itAdvance {it : BitVec 8} (h : it.extractLsb' 0 3 ≠ 0#3) (j : Nat) :
    (itAdvance it).getLsbD j
      = if j = 0 then false else if j < 5 then it.getLsbD (j - 1) else it.getLsbD j := by
  have hshift : itAdvance it = it.extractLsb' 5 3 ++ it.extractLsb' 0 4 ++ 0b0#1 := if_neg h
  have happ : (itAdvance it).getLsbD j
      = BitVec.getLsbD (w := 3 + 4 + 1) (it.extractLsb' 5 3 ++ it.extractLsb' 0 4 ++ 0b0#1) j := by rw [hshift]
  rw [happ]
  simp only [BitVec.getLsbD_append, BitVec.getLsbD_extractLsb']
  obtain rfl | ⟨hpos, hj⟩ | ⟨hlo, hhi⟩ | hj : j = 0 ∨ (0 < j ∧ j < 5) ∨ (5 ≤ j ∧ j < 8) ∨ 8 ≤ j := by omega
  · rfl
  · simp [show j ≠ 0 by omega, hj, show j - 1 < 4 by omega]
  · simp [show j ≠ 0 by omega, show ¬j < 5 by omega, show ¬j - 1 < 4 by omega, show j - 1 - 4 < 3 by omega,
      show 5 + (j - 1 - 4) = j by omega]
  · simp [show j ≠ 0 by omega, show ¬j < 5 by omega, show ¬j - 1 < 4 by omega, show ¬j - 1 - 4 < 3 by omega, hj]

/-- A T32 instruction that ends in A32 state leaves no IT block behind (R30). -/
theorem exec_itstate_of_toA32 {i : Instr} {s t : State} (h : exec i s = .next t) (hi : i.iset = .t32)
    (hs : s.t = .t32) (ht : t.t = .a32) : t.itstate = 0#8 := by
  obtain ⟨u, rfl, hu⟩ := exec_leaves h
  rw [hi, State.afterInstr_t] at ht
  rw [hi, State.afterInstr_itstate_t32]
  rcases hu.toA32 ((decodedOf_iset i s).trans hi) hs ht with hzero | hmid
  · rw [hzero, itAdvance_zero]
  · rcases hu.itstate with hkeep | ⟨-, -, -, hzero⟩
    · rw [hkeep, itAdvance_of_midITBlock hs hmid]
    · rw [hzero, itAdvance_zero]

/-- Settles O17: the advance, but for a T32 instruction that ends in A32 state. -/
theorem itStateAdvance : Obligations.ItStateAdvance := by
  intro i s t h
  obtain ⟨-, -, -, -, -, ha32, hadvance, -, -⟩ := flagsAreNeverWritten i s t h
  have hto := exec_itstate_of_toA32 h
  refine ⟨ha32, fun hi hlow => ?_, fun hi hlow hkeep => ?_, hto⟩
  · by_cases hbranch : s.t = .t32 ∧ t.t = .a32
    · exact hto hi hbranch.1 hbranch.2
    · rw [hadvance hi (.inl hbranch), itAdvance, if_pos hlow]
  · simp only [hadvance hi hkeep, getLsbD_itAdvance hlow]
    refine ⟨fun j hj => ?_, fun j hj => ?_, rfl⟩
    · rw [if_neg (by omega), if_neg (by omega)]
    · rw [if_neg (Nat.succ_ne_zero j), if_pos (Nat.succ_lt_succ hj), Nat.add_sub_cancel]

/-- Settles O55: a load of the PC is outside the middle of an IT block (R97), where the advance leaves zero. -/
theorem loadedPcStartsOutsideItBlock : Obligations.LoadedPcStartsOutsideItBlock := by
  intro i s t n hs hi ho h15 h
  obtain ⟨-, hc, -⟩ := ho
  have hmid : s.midITBlock = false := midITBlock_of_cases hi h15 (hc ▸ List.not_mem_nil)
  rw [exec_defined_itstate h hc, hi, State.afterInstr_itstate_t32, itAdvance_of_midITBlock hs hmid]

/-- Settles O16: ITSTATE[7:4] in an IT block, and outside one the condition AL. -/
theorem t1ConditionComesFromItState : Obligations.T1ConditionComesFromItState := by
  intro i s hi hs
  have hcond : (decodedOf i s).cond
      = if s.itstate.extractLsb' 0 4 ≠ 0#4 then s.itstate.extractLsb' 4 4 else 0b1110#4 := by
    cases i with
    | ldmdbA1 | ldmeaA1 => cases hi
    | ldmdbT1 | ldmeaT1 => simp [decodedOf, decodedT1, State.itCond, State.inITBlock, hs]
  refine ⟨fun hin => by rw [hcond, if_pos hin], fun hout => ?_⟩
  rw [hcond, if_neg (not_not_intro hout)]
  rfl

/-! ### The formed states are closed under the step (R131) -/

theorem itFormed_iff (s : State) : s.itFormed = true ↔ (s.t = .a32 → s.itstate = 0#8) := by
  cases ht : s.t <;> simp [State.itFormed, ht]

/-- The bits that a fetch answers come from an aligned `pc` (R48). -/
theorem pcAligned_of_fetch {s : State} {w : Word} (h : s.fetch = .ok w) : pcAligned s.t s.pc = true := by
  unfold State.fetch at h
  split at h
  next ha => exact ha
  next => cases h

/-- An instruction to be executed comes from a formed IT state, an aligned `pc` and bits that decode (R81). -/
theorem fetchInstr_next {s : State} {i : Instr} (h : s.fetchInstr = .next i) :
    s.itFormed = true ∧ ∃ w, s.fetch = .ok w ∧ decodeBits s.t w = .ok i := by
  unfold State.fetchInstr at h
  split at h
  next hf =>
    split at h
    next => cases h
    next w hw =>
      split at h
      next => cases h
      next j hj =>
        cases h
        exact ⟨hf, w, hw, hj⟩
  next => cases h

/-- The new PC is aligned for the new `T`, where the old one was (R26). -/
theorem PcFrom.aligned {s u : State} (h : PcFrom s u) (hs : pcAligned s.t s.pc = true)
    (hfa : s.params.forceAlignPc ≠ some false) : pcAligned u.t u.pc = true := by
  rcases h with hnext | ⟨a, v, -, hbranch⟩
  · obtain ⟨-, htarget⟩ := nextPc_ok hnext
    obtain ⟨hpc, ht⟩ := Prod.mk.inj htarget
    rw [hpc, ht]
    exact pcAligned_add_four hs
  · exact branchTarget_aligned hbranch hfa

/-- An instruction of the state's own set keeps `ITSTATE` zero in A32 state (R30). -/
theorem exec_itFormed {i : Instr} {s t : State} (h : exec i s = .next t) (hi : i.iset = s.t)
    (hs : s.itFormed = true) : t.itFormed = true := by
  obtain ⟨ha32, -, -, hto⟩ := itStateAdvance i s t h
  rw [itFormed_iff] at hs ⊢
  intro ht
  cases hset : s.t with
  | a32 => rw [ha32 (hi.trans hset), hs hset]
  | t32 => exact hto (hi.trans hset) hset ht

/-- Settles O52: the fetched instruction is of the state's set, no step writes memory, and the new PC is that of an
advance or a branch. -/
theorem stepKeepsFormed : Obligations.StepKeepsFormed := by
  rintro s t ⟨-, hwf, -⟩ h
  obtain ⟨-, -, -, -, -, hmem, hparams⟩ := (step_sameMachine h).fields
  obtain ⟨i, hfetch, hexec⟩ := step_next h
  obtain ⟨hit, w, hw, hdec⟩ := fetchInstr_next hfetch
  obtain ⟨-, hset, -, -⟩ := encodeOfDecodeIsTheBits s.t w i hdec
  refine ⟨exec_itFormed hexec hset hit, hmem ▸ hwf, fun hfa => ?_⟩
  obtain ⟨u, rfl, hu⟩ := exec_leaves hexec
  rw [State.afterInstr_t, State.afterInstr_pc]
  exact hu.pc.aligned (pcAligned_of_fetch hw) (hparams ▸ hfa)

/-- Settles O53: reset is in A32 outside an IT block, with an empty image and `pc` zero. -/
theorem resetIsFormed : Obligations.ResetIsFormed := ⟨rfl, Memory.wf_reset, fun _ => rfl⟩

end Sys2Proof.Machine

namespace Sys2Proof.Machine

/-! ### The advance of the PC (R25) -/

theorem nextPc_of_top {s : State} (h : 0xFFFFFFFC ≤ s.pc.toNat) : s.nextPc = .error (.pcWrap s.pc) :=
  if_neg (Nat.not_lt.2 h)

theorem advance_of_top {s : State} (h : 0xFFFFFFFC ≤ s.pc.toNat) : s.advance = .error (.pcWrap s.pc) := by
  rw [State.advance, nextPc_of_top h]
  rfl

theorem pcAfter_of_unlisted {s : State} {registers : BitVec 16} (h : registers.getLsbD 15 = false) (a : Word) :
    s.pcAfter registers a = s.nextPc := by
  rw [State.pcAfter, h, if_neg (by decide)]

/-- Settles O25: where the PC is not listed, the new PC is that of the advance. -/
theorem pcAdvancesByFour : Obligations.PcAdvancesByFour := by
  refine fun i s n ho h15 hl => ⟨fun hlt => ?_, fun htop => ?_⟩
  · obtain ⟨t, ht, hc⟩ := exec_completes ho hl ((pcAfter_of_unlisted h15 _).trans (nextPc_of_lt hlt))
    exact ⟨t, ht, hc.pc, hc.t⟩
  · have hr : ∀ k, k < listedBelow (decodedOf i s).registers 15 →
        ∃ v, s.memRead (startAddress (s.getX n) (decodedOf i s).registers + BitVec.ofNat 32 (4 * k)) = .ok v :=
      fun k hk => hl.memRead (hk.trans_le (listedBelow_mono _ (by decide)))
    exact exec_of_pcAfter_error ho hl.checkRange hr ((pcAfter_of_unlisted h15 _).trans (nextPc_of_top htop))

/-! ### A failed condition (R90) -/

theorem baseIsPC_mem_cases_iff (i : Instr) (s : State) :
    UnpredCase.baseIsPC ∈ (decodedOf i s).cases ↔ (decodedOf i s).rn = 0b1111#4 := by
  cases i <;> simp [decodedOf, decodedA1, decodedT1, casesA1, casesT1]

/-- A base field that is not the PC names a general register (R65). -/
theorem baseReg_of_ne_pc {rn : BitVec 4} (h : rn ≠ 0b1111#4) : ∃ n, baseReg rn = some n := by
  have hlt : rn.toNat < 15 := by
    have hne : rn.toNat ≠ 15 := fun e => h (BitVec.eq_of_toNat_eq e)
    have := rn.isLt
    omega
  exact ⟨_, dif_pos hlt⟩

/-- A skipped instruction is its advance, in both encodings. -/
theorem exec_of_skips {i : Instr} {s : State} (h : Skips i s) : exec i s = finish i.iset s.advance := by
  obtain ⟨hc, hp⟩ := h
  have hrn : (decodedOf i s).rn ≠ 0b1111#4 := fun e => by
    have hmem := (baseIsPC_mem_cases_iff i s).2 e
    rw [hc] at hmem
    cases hmem
  obtain ⟨n, hn⟩ := baseReg_of_ne_pc hrn
  rw [exec_of_defined hn hc, State.execDefined, hp, if_neg (by decide)]

/-- Settles O26: the advance of the PC, and the end of an instruction in each set. -/
theorem failedConditionOnlyAdvances : Obligations.FailedConditionOnlyAdvances := by
  intro i s h
  rw [exec_of_skips h]
  refine ⟨fun hlt hi => ?_, fun hlt hi => ?_, fun htop => ?_⟩
  · rw [advance_of_lt hlt, hi]
    rfl
  · rw [advance_of_lt hlt, hi]
    rfl
  · rw [advance_of_top htop]
    rfl

/-- After a failed condition, an admitted case that completes has advanced and drawn, and nothing else. -/
theorem execCase_of_failed {s u : State} {d : Decoded} {n : Fin 15} {c : UnpredCase}
    (hp : s.conditionPassed d.cond = false) (h : s.execCase d n c = .ok u) :
    ∃ v, s.advance = .ok v ∧ u = v.drawn := by
  unfold State.execCase at h
  split at h
  next => cases h
  next => cases h
  next =>
    rw [hp, if_neg (by decide)] at h
    exact exceptMap_ok h

/-- After a failed condition, any instruction that completes has advanced the PC, and perhaps drawn. -/
theorem exec_of_failed {i : Instr} {s t : State} (hp : s.conditionPassed (decodedOf i s).cond = false)
    (h : exec i s = .next t) :
    ∃ draws, t = State.afterInstr { s with pc := s.pc + 4#32, draws := draws } i.iset := by
  obtain ⟨n, u, -, rfl, ⟨-, hu⟩ | ⟨c, -, hu⟩⟩ := exec_next h
  · rcases execDefined_ok hu with ⟨hp', -⟩ | ⟨-, rfl⟩
    · rw [hp] at hp'
      cases hp'
    · exact ⟨s.draws, rfl⟩
  · obtain ⟨v, hv, rfl⟩ := execCase_of_failed hp hu
    obtain ⟨-, rfl⟩ := advance_ok hv
    exact ⟨s.draws + 1, rfl⟩

/-- Settles O27: the advance and the count of draws, at the end of an instruction in each set. -/
theorem failedConditionNeverLoads : Obligations.FailedConditionNeverLoads := by
  intro i s t hp h
  obtain ⟨draws, rfl⟩ := exec_of_failed hp h
  refine ⟨fun hi => ?_, fun hi => ?_⟩
  · rw [hi]
    rfl
  · rw [hi]
    rfl

/-! ### The range checks (R43, R46, R85) -/

/-- The start address and the base are aligned together. -/
theorem startAddress_mod_four_iff (base : Word) (registers : BitVec 16) :
    (startAddress base registers).toNat % 4 = 0 ↔ base.toNat % 4 = 0 := by
  rw [← wordAligned_iff, ← wordAligned_iff, wordAligned_startAddress]

/-- Settles O37: a misaligned base has a misaligned start address, which is checked first. -/
theorem misalignedBaseAborts : Obligations.MisalignedBaseAborts :=
  fun _ _ _ ho h => exec_of_checkRange_error ho (checkRange_of_misaligned (mt (startAddress_mod_four_iff _ _).1 h))

/-- The loop faults only by a read (R44). -/
theorem loadListed_error {s : State} {registers : BitVec 16} {is : List (Fin 15)} {a : Word} {f : Fault}
    (h : s.loadListed registers is a = .error f) : ∃ kind b, f = .dataAbort kind b := by
  induction is generalizing a with
  | nil => cases h
  | cons i is ih =>
    unfold State.loadListed at h
    split at h
    next =>
      cases hv : s.memRead a with
      | error g =>
        rw [hv] at h
        cases h
        obtain ⟨kind, hkind⟩ := memRead_error hv
        exact ⟨kind, a, hkind⟩
      | ok v =>
        cases hr : s.loadListed registers is (a + 4#32) with
        | error g =>
          rw [hv, hr] at h
          cases h
          exact ih hr
        | ok r =>
          rw [hv, hr] at h
          cases h
    next => exact ih h

/-- An interworking branch faults only on its low bits (R89). -/
theorem branchTarget_error {fa : Option Bool} {v : Word} {f : Fault} (h : branchTarget fa v = .error f) :
    f = .unpredictableBranchAlign v := by
  unfold branchTarget at h
  split at h
  next => cases h
  next =>
    split at h
    next =>
      split at h
      next => cases h; rfl
      next => cases h
      next => cases h
    next => cases h

/-- The new PC is looked for without a check of the range. -/
theorem pcAfter_ne_addressWrap (s : State) (registers : BitVec 16) (a base : Word) :
    s.pcAfter registers a ≠ .error (.addressWrap base) := by
  intro h
  unfold State.pcAfter at h
  split at h
  next =>
    cases hv : s.memRead a with
    | error g =>
      rw [hv] at h
      obtain ⟨kind, rfl⟩ := memRead_error hv
      cases h
    | ok v =>
      rw [hv] at h
      cases branchTarget_error h
  next =>
    unfold State.nextPc at h
    split at h
    next => cases h
    next => cases h

/-- Of all that listing L84 does, only the range check answers AddressWrap. -/
theorem checkRange_of_loadMultiple_wrap {s : State} {n : Fin 15} {registers : BitVec 16} {wback : Bool}
    {u base : Word} (h : s.loadMultiple n registers wback u = .error (.addressWrap base)) :
    checkRange (s.getX n) registers = .error (.addressWrap base) := by
  unfold State.loadMultiple at h
  cases hc : checkRange (s.getX n) registers with
  | error f =>
    simp only [hc] at h
    cases h
    rfl
  | ok _ =>
    cases hl : s.loadListed registers loopRegs (startAddress (s.getX n) registers) with
    | error f =>
      simp only [hc, hl] at h
      obtain ⟨kind, b, rfl⟩ := loadListed_error hl
      cases h
    | ok r =>
      cases hp : s.pcAfter registers r.2 with
      | error f =>
        simp only [hc, hl, bind, Except.bind, hp] at h
        cases h
        exact (pcAfter_ne_addressWrap _ _ _ _ hp).elim
      | ok target =>
        simp only [hc, hl, bind, Except.bind, hp] at h
        cases h

theorem finish_fault {t : ISet} {r : Except Fault State} {f : Fault} (h : finish t r = .fault f) : r = .error f := by
  cases r with
  | error g => cases h; rfl
  | ok u => cases h

/-- A base of 0 passes both checks: its words are the last of the address space (R43). -/
theorem checkRange_zero (registers : BitVec 16) : checkRange 0#32 registers = .ok () :=
  checkRange_of_ready rfl rfl

/-- Settles O38: the wrap check, which a base of 0 passes and which alone answers AddressWrap. -/
theorem addressWrapFaults : Obligations.AddressWrapFaults := by
  refine fun i s n ho ha => ⟨fun hpos hlt => ?_, ?_⟩
  · exact exec_of_checkRange_error ho (checkRange_of_wraps ((startAddress_mod_four_iff _ _).2 ha) hpos hlt)
  · rintro h0 f hf base rfl
    rw [exec_of_operates ho] at hf
    have hc := checkRange_of_loadMultiple_wrap (finish_fault hf)
    rw [h0, checkRange_zero] at hc
    cases hc

/-! ### Which UNPREDICTABLE case answers (R14, R98) -/

/-- Settles O39: the default policy admits no case. -/
theorem defaultPolicyFaultsWithFirstCase : Obligations.DefaultPolicyFaultsWithFirstCase := by
  intro i s c cs hpolicy hc
  refine exec_unpredictable hc (.inr (.inr ?_))
  rw [hpolicy]
  cases c <;> rfl

/-- Settles O40: a second case is a fault before CU_POLICY is asked. -/
theorem twoCasesAlwaysFault : Obligations.TwoCasesAlwaysFault :=
  fun _ _ _ c' cs hc => exec_unpredictable hc (.inl (List.cons_ne_nil c' cs))

/-- The first of a list of cases whose first candidate holds or not. -/
theorem head?_case_append (p : Prop) [Decidable p] (c : UnpredCase) (cs : List UnpredCase) :
    ((if p then [c] else []) ++ cs).head? = if p then some c else cs.head? := by
  split <;> rfl

theorem head?_casesA1 (rn : BitVec 4) (registers : BitVec 16) (wback : Bool) :
    (casesA1 rn registers wback).head? =
      if rn = 0b1111#4 then some .baseIsPC
      else if bitCount registers < 1 then some .emptyList
      else if wback && registers.getLsbD rn.toNat then some .writebackBaseInList
      else none := by
  rw [casesA1, List.append_assoc, head?_case_append, head?_case_append,
    ← List.append_nil (if wback && registers.getLsbD rn.toNat then _ else _), head?_case_append, List.head?_nil]

theorem head?_casesT1 (rn : BitVec 4) (registers : BitVec 16) (wback midIT : Bool) :
    (casesT1 rn registers wback midIT).head? =
      if rn = 0b1111#4 then some .baseIsPC
      else if bitCount registers < 1 then some .emptyList
      else if bitCount registers = 1 then some .singleRegisterT1
      else if registers.getLsbD 15 && registers.getLsbD 14 then some .lrAndPcT1
      else if wback && registers.getLsbD rn.toNat then some .writebackBaseInList
      else if registers.getLsbD 13 then some .r13InListT1
      else if registers.getLsbD 15 && midIT then some .pcLoadInsideITBlock
      else none := by
  rw [casesT1, ← List.append_nil (_ ++ _)]
  simp only [List.append_assoc, head?_case_append, List.head?_nil]

/-- The two top bits of a list are the PC and LR (R68). -/
theorem top_bits_eq_iff (registers : BitVec 16) :
    registers.extractLsb' 14 2 = 0b11#2 ↔ registers.getLsbD 15 = true ∧ registers.getLsbD 14 = true := by
  constructor
  · intro h
    exact ⟨by simpa using congrArg (BitVec.getLsbD · 1) h, by simpa using congrArg (BitVec.getLsbD · 0) h⟩
  · rintro ⟨h15, h14⟩
    apply BitVec.eq_of_getLsbD_eq
    intro j hj
    obtain rfl | rfl : j = 0 ∨ j = 1 := by omega
    · simpa using h14
    · simpa using h15

/-- Settles O41: each encoding's cases are listed in the order of its Decode text. -/
theorem firstUnpredictableCase : Obligations.FirstUnpredictableCase := by
  intro i s
  cases hi : i.iset with
  | a32 =>
    rw [cases_of_a32 hi, head?_casesA1]
    simp only [Nat.lt_one_iff, Bool.and_eq_true, reduceCtorEq, false_and, if_false]
  | t32 =>
    rw [cases_of_t32 hi, head?_casesT1]
    simp only [Nat.lt_one_iff, Bool.and_eq_true, true_and, top_bits_eq_iff, midITBlock_iff]

end Sys2Proof.Machine

namespace Sys2Proof.Machine

/-! ### Four bytes of an access (R44, R48) -/

/-- An access answers the four bytes, or the kind of the lowest refused one (log entry 3). -/
theorem loadBytes4_cases (s : State) (a : Nat) :
    (∃ b0 b1 b2 b3, s.loadBytes4 a = .ok (b0, b1, b2, b3) ∧ s.loadByte a = .ok b0 ∧ s.loadByte (a + 1) = .ok b1 ∧
      s.loadByte (a + 2) = .ok b2 ∧ s.loadByte (a + 3) = .ok b3) ∨
    ∃ k why, s.loadBytes4 a = .error why ∧ k < 4 ∧ s.loadByte (a + k) = .error why ∧
      ∀ j, j < k → ∃ b, s.loadByte (a + j) = .ok b := by
  unfold State.loadBytes4
  cases h0 : s.loadByte a with
  | error why => exact .inr ⟨0, why, rfl, by decide, h0, fun j hj => absurd hj (Nat.not_lt_zero j)⟩
  | ok b0 =>
    cases h1 : s.loadByte (a + 1) with
    | error why =>
      refine .inr ⟨1, why, rfl, by decide, h1, fun j hj => ?_⟩
      obtain rfl : j = 0 := by omega
      exact ⟨b0, h0⟩
    | ok b1 =>
      cases h2 : s.loadByte (a + 2) with
      | error why =>
        refine .inr ⟨2, why, rfl, by decide, h2, fun j hj => ?_⟩
        obtain rfl | rfl : j = 0 ∨ j = 1 := by omega
        · exact ⟨b0, h0⟩
        · exact ⟨b1, h1⟩
      | ok b2 =>
        cases h3 : s.loadByte (a + 3) with
        | error why =>
          refine .inr ⟨3, why, rfl, by decide, h3, fun j hj => ?_⟩
          obtain rfl | rfl | rfl : j = 0 ∨ j = 1 ∨ j = 2 := by omega
          · exact ⟨b0, h0⟩
          · exact ⟨b1, h1⟩
          · exact ⟨b2, h2⟩
        | ok b3 => exact .inl ⟨b0, b1, b2, b3, rfl, rfl, rfl, rfl, rfl⟩

theorem loadBytes4_of_bytes {s : State} {a : Nat} {b0 b1 b2 b3 : Byte} (h0 : s.loadByte a = .ok b0)
    (h1 : s.loadByte (a + 1) = .ok b1) (h2 : s.loadByte (a + 2) = .ok b2) (h3 : s.loadByte (a + 3) = .ok b3) :
    s.loadBytes4 a = .ok (b0, b1, b2, b3) := by
  rw [State.loadBytes4, h0, h1, h2, h3]
  rfl

/-- One refused byte is enough to refuse the access. -/
theorem loadBytes4_of_refused {s : State} {a k : Nat} {why : AccessRefusal} (hk : k < 4)
    (h : s.loadByte (a + k) = .error why) : ∃ e, s.loadBytes4 a = .error e := by
  rcases loadBytes4_cases s a with ⟨b0, b1, b2, b3, -, h0, h1, h2, h3⟩ | ⟨j, e, he, -⟩
  · obtain rfl | rfl | rfl | rfl : k = 0 ∨ k = 1 ∨ k = 2 ∨ k = 3 := by omega
    · cases h0.symm.trans h
    · cases h1.symm.trans h
    · cases h2.symm.trans h
    · cases h3.symm.trans h
  · exact ⟨e, he⟩

/-! ### The read of a data word (R44 to R46) -/

theorem memRead_of_misaligned (s : State) {a : Word} (h : a.toNat % 4 ≠ 0) :
    s.memRead a = .error (.dataAbort .alignment a) := if_neg (mt (wordAligned_iff a).1 h)

theorem memRead_of_refused {s : State} {a : Word} {why : AccessRefusal} (ha : a.toNat % 4 = 0)
    (h : s.loadBytes4 a.toNat = .error why) : s.memRead a = .error (.dataAbort (.refused why) a) := by
  rw [State.memRead, if_pos ((wordAligned_iff a).2 ha), h]

theorem memRead_of_loadBytes4 {s : State} {a : Word} {b0 b1 b2 b3 : Byte} (ha : a.toNat % 4 = 0)
    (h : s.loadBytes4 a.toNat = .ok (b0, b1, b2, b3)) :
    s.memRead a = .ok (wordOfBytes s.params.bigEnd b0 b1 b2 b3) := by
  rw [State.memRead, if_pos ((wordAligned_iff a).2 ha), h]

/-- Above its lowest byte, a value joined with a byte is the value. -/
theorem extract_above_byte {m : Nat} (v : BitVec m) (b : Byte) (start : Nat) :
    (v ++ b).extractLsb' (start + 8) 8 = v.extractLsb' start 8 := by
  rw [BitVec.extractLsb'_append_eq_of_le (Nat.le_add_left 8 start), Nat.add_sub_cancel]

/-- Four bytes put together, from the highest to the lowest, and read back. -/
theorem extract_append_bytes (b3 b2 b1 b0 : Byte) :
    (b3 ++ b2 ++ b1 ++ b0).extractLsb' 0 8 = b0 ∧ (b3 ++ b2 ++ b1 ++ b0).extractLsb' 8 8 = b1 ∧
      (b3 ++ b2 ++ b1 ++ b0).extractLsb' 16 8 = b2 ∧ (b3 ++ b2 ++ b1 ++ b0).extractLsb' 24 8 = b3 := by
  have hdrop := extract_above_byte (b3 ++ b2 ++ b1) b0
  have hdrop' := extract_above_byte (b3 ++ b2) b1
  exact ⟨BitVec.extractLsb'_append_eq_right, (hdrop 0).trans BitVec.extractLsb'_append_eq_right,
    (hdrop 8).trans ((hdrop' 0).trans BitVec.extractLsb'_append_eq_right),
    (hdrop 16).trans ((hdrop' 8).trans ((extract_above_byte b3 b2 0).trans BitVec.extractLsb'_eq_self))⟩

/-- Settles O49: the word is its bytes from the highest to the lowest, at falling or at rising addresses. -/
theorem memReadByteOrder : Obligations.MemReadByteOrder := by
  refine fun s a => ⟨memRead_of_misaligned s, fun b0 b1 b2 b3 ha h0 h1 h2 h3 => ?_⟩
  have hread := memRead_of_loadBytes4 ha (loadBytes4_of_bytes h0 h1 h2 h3)
  refine ⟨fun hlittle => ⟨b3 ++ b2 ++ b1 ++ b0, ?_, extract_append_bytes b3 b2 b1 b0⟩,
    fun hbig => ⟨b0 ++ b1 ++ b2 ++ b3, ?_, ?_⟩⟩
  · rw [hread, hlittle]
    rfl
  · rw [hread, hbig]
    rfl
  · obtain ⟨e3, e2, e1, e0⟩ := extract_append_bytes b0 b1 b2 b3
    exact ⟨e0, e1, e2, e3⟩

/-- Settles O51: alignment is checked first, and then the bytes from the lowest. -/
theorem readFaultsNameTheirAddress : Obligations.ReadFaultsNameTheirAddress := by
  intro s a f hf
  by_cases ha : a.toNat % 4 = 0
  · refine .inr ⟨ha, ?_⟩
    rcases loadBytes4_cases s a.toNat with ⟨b0, b1, b2, b3, hok, -⟩ | ⟨k, why, herr, hk, hrefused, hlow⟩
    · cases (memRead_of_loadBytes4 ha hok).symm.trans hf
    · cases (memRead_of_refused ha herr).symm.trans hf
      exact ⟨why, rfl, k, hk, hrefused, hlow⟩
  · cases (memRead_of_misaligned s ha).symm.trans hf
    exact .inl ⟨ha, rfl⟩

/-! ### The fetch (R26, R48) -/

theorem fetch_of_misaligned {s : State} (h : pcAligned s.t s.pc ≠ true) : s.fetch = .error (.pcAlignment s.pc) :=
  if_neg h

theorem fetch_of_refused {s : State} {e : AccessRefusal} (ha : pcAligned s.t s.pc = true)
    (h : s.loadBytes4 s.pc.toNat = .error e) : s.fetch = .error (.prefetchAbort s.pc) := by
  rw [State.fetch, if_pos ha, h]

theorem fetch_of_bytes {s : State} {b0 b1 b2 b3 : Byte} (ha : pcAligned s.t s.pc = true)
    (h0 : s.loadByte s.pc.toNat = .ok b0) (h1 : s.loadByte (s.pc.toNat + 1) = .ok b1)
    (h2 : s.loadByte (s.pc.toNat + 2) = .ok b2) (h3 : s.loadByte (s.pc.toNat + 3) = .ok b3) :
    s.fetch = .ok (bitsOfBytes s.t b0 b1 b2 b3) := by
  rw [State.fetch, if_pos ha, loadBytes4_of_bytes h0 h1 h2 h3]

/-- Settles O50: the layout is that of the instruction set alone. -/
theorem fetchIgnoresDataByteOrder : Obligations.FetchIgnoresDataByteOrder := by
  refine ⟨fun s b0 b1 b2 b3 ha h0 h1 h2 h3 => ?_, fun s b => rfl⟩
  rw [fetch_of_bytes ha h0 h1 h2 h3]
  refine ⟨fun ht => ?_, fun ht => ?_⟩
  · rw [ht]
    rfl
  · rw [ht]
    rfl

/-! ### What a step answers, by the stage that ends it (R81) -/

theorem step_of_illFormed {s : State} (h : s.itFormed ≠ true) : step s = .refused .illFormedLaunch := by
  rw [step, State.fetchInstr, if_neg h]

section
variable {s : State} (hit : s.itFormed = true)
include hit

theorem step_of_fetch_error {f : Fault} (h : s.fetch = .error f) : step s = .fault f := by
  rw [step, State.fetchInstr, if_pos hit, h]

theorem step_of_decode_error {w : Word} {e : DecodeReject} (h : s.fetch = .ok w) (he : decodeBits s.t w = .error e) :
    step s = .refused (.notInScope w) := by
  simp only [step, State.fetchInstr, if_pos hit, h, he]

theorem step_of_decode {w : Word} {i : Instr} (h : s.fetch = .ok w) (hi : decodeBits s.t w = .ok i) :
    step s = exec i s := by
  simp only [step, State.fetchInstr, if_pos hit, h, hi]

end

/-- Four bytes that decode hold the bits of the instruction. -/
theorem decodeBits_of_decode {t : ISet} {b0 b1 b2 b3 : Byte} {i : Instr} {rest : List Byte}
    (h : decode t [b0, b1, b2, b3] = .ok (i, rest)) : decodeBits t (bitsOfBytes t b0 b1 b2 b3) = .ok i := by
  simp only [decode] at h
  split at h
  next j hj => cases h; exact hj
  next => cases h

/-- Settles O9: the fetched bytes are those that decode. -/
theorem stepRunsDecodedInstruction : Obligations.StepRunsDecodedInstruction :=
  fun _ _ _ _ _ _ hit ha h0 h1 h2 h3 hi =>
    step_of_decode hit (fetch_of_bytes ha h0 h1 h2 h3) (decodeBits_of_decode hi)

/-- Settles O10: the fetch checks the alignment of `pc` first. -/
theorem misalignedPcFaults : Obligations.MisalignedPcFaults := by
  intro s hit h
  refine step_of_fetch_error hit (fetch_of_misaligned fun ha => ?_)
  rw [pcAligned_iff] at ha
  rcases h with ⟨ht, hne⟩ | ⟨ht, hne⟩ <;> rw [ht] at ha <;> exact hne ha

/-- Settles O11: one refused byte refuses the fetch. -/
theorem refusedFetchFaults : Obligations.RefusedFetchFaults := by
  intro s k why hit ha hk h
  obtain ⟨e, he⟩ := loadBytes4_of_refused hk h
  exact step_of_fetch_error hit (fetch_of_refused ha he)

/-- Settles O12: the step ends at the decoder's rejection. -/
theorem otherWordsAreNotInScope : Obligations.OtherWordsAreNotInScope :=
  fun _ _ _ hit h he => step_of_decode_error hit h he

/-- Settles O13: the check of `ITSTATE` is the first of a step. -/
theorem illFormedItStateIsRefused : Obligations.IllFormedItStateIsRefused :=
  fun s ht hne => step_of_illFormed fun hit => hne ((itFormed_iff s).1 hit ht)

/-- Settles O54: the image at reset holds no byte at 0. -/
theorem resetFetchesNothing : Obligations.ResetFetchesNothing :=
  refusedFetchFaults State.reset 0 .translation rfl rfl (by decide) rfl

/-- Settles O6: the four byte sequences, evaluated. -/
theorem onePatternTwoByteOrders : Obligations.OnePatternTwoByteOrders := by
  unfold Obligations.OnePatternTwoByteOrders
  decide

/-! ### Placing an instruction (log entries 8 and 9) -/

theorem Memory.read_writeBytes_of_lt (vs : List Byte) (m : Memory) {a c : Nat} (h : c < a) :
    (m.writeBytes a vs).read c = m.read c := by
  induction vs generalizing m a with
  | nil => rfl
  | cons v vs ih =>
    rw [Memory.writeBytes, ih _ (Nat.lt_succ_of_lt h), Memory.read_write_of_ne m v (Nat.ne_of_lt h)]

/-- Written bytes are read back at rising addresses. -/
theorem Memory.read_writeBytes (vs : List Byte) (m : Memory) (a : Nat) {k : Nat} {v : Byte} (h : vs[k]? = some v) :
    (m.writeBytes a vs).read (a + k) = some v := by
  induction vs generalizing m a k with
  | nil => simp at h
  | cons u us ih =>
    rw [Memory.writeBytes]
    cases k with
    | zero =>
      obtain rfl : u = v := by simpa using h
      exact (Memory.read_writeBytes_of_lt us _ (Nat.lt_succ_self a)).trans (Memory.read_write_self m a u)
    | succ k =>
      rw [← Nat.add_assoc, Nat.add_right_comm]
      exact ih _ (a + 1) (by simpa using h)

/-- A byte that an access answers is the image's. -/
theorem read_of_loadByte {s : State} {a : Nat} {b : Byte} (h : s.loadByte a = .ok b) : s.mem.read a = some b := by
  unfold State.loadByte at h
  split at h
  next => cases h
  next =>
    split at h
    next =>
      split at h
      next c hc => cases h; exact hc
      next => cases h
    next => cases h

@[simp] theorem State.admit4_t (s : State) (a) : (s.admit4 a).t = s.t := by unfold State.admit4; split <;> rfl
@[simp] theorem State.admit4_pc (s : State) (a) : (s.admit4 a).pc = s.pc := by unfold State.admit4; split <;> rfl
@[simp] theorem State.admit4_itstate (s : State) (a) : (s.admit4 a).itstate = s.itstate := by
  unfold State.admit4; split <;> rfl

/-- After the admission, the bytes that the image holds are answered: they were before, or the new region covers them. -/
theorem loadByte_admit4 {s : State} {a k : Nat} {b : Byte} (hk : k < 4) (ha : a + 4 ≤ 2 ^ 32)
    (h : s.mem.read (a + k) = some b) : (s.admit4 a).loadByte (a + k) = .ok b := by
  unfold State.admit4
  split
  next hok =>
    cases hb : s.loadByte (a + k) with
    | error why =>
      obtain ⟨e, he⟩ := loadBytes4_of_refused hk hb
      cases hok.symm.trans he
    | ok c =>
      cases (read_of_loadByte hb).symm.trans h
      rfl
  next =>
    have hcovers : covers { first := a, last := a + 3, refusal := none } (a + k) = true := by
      simp only [covers, Bool.and_eq_true, decide_eq_true_eq]
      omega
    have hlt : a + k < 2 ^ 32 := by omega
    simp only [State.loadByte, State.regionRefusal, List.find?_cons, hcovers, if_pos hlt, h]

/-- `pc` moved down to a word address. -/
theorem toNat_wordDown (pc : Word) :
    (pc.extractLsb' 2 30 ++ 0b00#2).toNat = 4 * (pc.extractLsb' 2 30).toNat := by
  rw [BitVec.toNat_append]
  simp only [BitVec.toNat_ofNat, Nat.zero_mod, Nat.or_zero, Nat.shiftLeft_eq]
  exact Nat.mul_comm _ _

/-- The place is aligned for either set's fetch, and its four bytes are below the top of the address space. -/
theorem placePc_fetchable (t : ISet) (pc : Word) :
    pcAligned t (placePc t pc) = true ∧ (placePc t pc).toNat + 4 ≤ 2 ^ 32 := by
  unfold placePc
  split
  next h => simpa using h
  next =>
    have hdown := toNat_wordDown pc
    have hlt := (pc.extractLsb' 2 30).isLt
    refine ⟨?_, by omega⟩
    rw [pcAligned_iff]
    cases t <;> dsimp only <;> omega

section
variable (s : State) (t : ISet) (bits : Word)

@[simp] theorem State.place_t : (s.place t bits).t = t := State.admit4_t _ _

@[simp] theorem State.place_pc : (s.place t bits).pc = placePc t s.pc := State.admit4_pc _ _

/-- Placing for A32 clears `ITSTATE` (R30). -/
theorem itFormed_place : (s.place t bits).itFormed = true := by
  rw [itFormed_iff, State.place_t]
  rintro rfl
  exact State.admit4_itstate _ _

/-- The placed bits are what the next step fetches. -/
theorem fetch_place : (s.place t bits).fetch = .ok bits := by
  obtain ⟨ha, hlt⟩ := placePc_fetchable t s.pc
  obtain ⟨b0, b1, b2, b3, hbytes, hbits⟩ := bitsOfBytes_bytesOfBits t bits
  have hload : ∀ {k : Nat} {b : Byte}, k < 4 → (bytesOfBits t bits)[k]? = some b →
      (s.place t bits).loadByte ((s.place t bits).pc.toNat + k) = .ok b := by
    intro k b hk hb
    rw [State.place_pc]
    exact loadByte_admit4 hk hlt (Memory.read_writeBytes _ _ _ hb)
  rw [hbytes] at hload
  have hfetch := fetch_of_bytes (s := s.place t bits) (by rwa [State.place_t, State.place_pc])
    (hload (k := 0) (by decide) rfl) (hload (k := 1) (by decide) rfl) (hload (k := 2) (by decide) rfl)
    (hload (k := 3) (by decide) rfl)
  rw [hfetch, State.place_t, hbits]

end

theorem decodeBits_of_decodeTableWord {nbits w : Nat} {i : Instr} (h : decodeTableWord nbits w = some i) :
    decodeBits (tableISet (tableBits nbits w)) (tableBits nbits w) = .ok i := by
  have hdec := decode_bytesOfBits (tableISet (tableBits nbits w)) (tableBits nbits w) []
  rw [List.append_nil] at hdec
  simp only [decodeTableWord, hdec] at h
  cases hd : decodeBits (tableISet (tableBits nbits w)) (tableBits nbits w) with
  | error e => rw [hd] at h; cases h
  | ok j => rw [hd] at h; cases h; rfl

/-- Settles O14: the placed bits are fetched in the table word's set, in which they decode. -/
theorem placedTableWordRunsNext : Obligations.PlacedTableWordRunsNext := by
  intro s nbits w i h
  refine step_of_decode (itFormed_place s _ _) (fetch_place s _ _) ?_
  rw [State.place_t]
  exact decodeBits_of_decodeTableWord h

/-! ### The condition table (R27) -/

theorem conditionPassed_even (s : State) (sel : BitVec 3) : s.conditionPassed (sel ++ 0b0#1) = s.condBase sel := by
  have hsel : (sel ++ 0b0#1).extractLsb' 1 3 = sel := BitVec.extractLsb'_append_eq_left
  have hbit : (sel ++ 0b0#1).getLsbD 0 = false := by rw [BitVec.getLsbD_append]; rfl
  rw [State.conditionPassed, hsel, hbit]
  rfl

/-- An odd condition is the test of the even one below it, inverted, but for `1111`. -/
theorem conditionPassed_odd (s : State) {sel : BitVec 3} (h : sel ≠ 0b111#3) :
    s.conditionPassed (sel ++ 0b1#1) = !s.condBase sel := by
  have hsel : (sel ++ 0b1#1).extractLsb' 1 3 = sel := BitVec.extractLsb'_append_eq_left
  have hbit : (sel ++ 0b1#1).getLsbD 0 = true := by rw [BitVec.getLsbD_append]; rfl
  have hne : sel ++ 0b1#1 ≠ 0b1111#4 := by
    intro e
    rw [e] at hsel
    exact h hsel.symm
  rw [State.conditionPassed, hsel, hbit, Bool.true_and, if_pos (bne_iff_ne.2 hne)]

/-- Settles O15: the eight base tests, each with its inverse. -/
theorem conditionTable : Obligations.ConditionTable := by
  intro s
  refine ⟨conditionPassed_even s 0#3, conditionPassed_odd s (sel := 0#3) (by decide),
    conditionPassed_even s 1#3, conditionPassed_odd s (sel := 1#3) (by decide),
    conditionPassed_even s 2#3, conditionPassed_odd s (sel := 2#3) (by decide),
    conditionPassed_even s 3#3, conditionPassed_odd s (sel := 3#3) (by decide),
    conditionPassed_even s 4#3, ?_, conditionPassed_even s 5#3, conditionPassed_odd s (sel := 5#3) (by decide),
    conditionPassed_even s 6#3, ?_, conditionPassed_even s 7#3, rfl⟩
  · exact (conditionPassed_odd s (sel := 4#3) (by decide)).trans (by simp [State.condBase])
  · exact (conditionPassed_odd s (sel := 6#3) (by decide)).trans (by simp [State.condBase, bne])

/-! ### A run at HALT_PC (R123) -/

theorem runSteps_of_halt {s : State} (h : s.pc = s.params.haltPc) (k : Nat) : runSteps k s = .final s := by
  cases k with
  | zero => exact if_pos h
  | succ k => exact if_pos h

/-- Settles O56: a formed launch is a run, which looks at HALT_PC before its first step. -/
theorem runEndsAtHaltPc : Obligations.RunEndsAtHaltPc := by
  intro s k hlaunch h
  rw [runFrom, if_pos hlaunch, runSteps_of_halt h]

end Sys2Proof.Machine
